-- ==== Sys2Proof/Word.lean ====
section
/-! DEFINITION. The three widths of the core: bytes, 32-bit words and 128-bit blocks (spec rule R6). -/

namespace Sys2Proof

/-- A byte, an "integer in [0,255]" (R6). Bit 0 is the least significant (R11). -/
abbrev Byte := BitVec 8

/-- A 32-bit word: a command word, STATUS, a counter, or a 4-byte Word of the key schedule.
As four bytes, byte 0 is the most significant (R13). -/
abbrev Word := BitVec 32

/-- A Block128: 16 bytes, byte `k` in bits `[127 - 8k : 120 - 8k]`, so that the block's number is
its `int128` and its hex form prints byte 0 first (R12, R13, R63). -/
abbrev Block := BitVec 128

end Sys2Proof
end

