-- ==== Sys2Proof/Syntax.lean ====
section
/-! DEFINITION. The 24 commands of the opcode map (R82), one constructor per row of
spec/opcode_table.json, with the operand fields its format has (R83, R84). -/

namespace Sys2Proof

/-- A decoded command. `a` and `b` are the unsigned byte fields A and B, used as is; `v` is the verify
flag V (R84, R86). -/
inductive Instr where
  /-- NOP, opcode 0x00, format N (R250). -/
  | nop
  /-- CLRERR, opcode 0x01, format N (R251). -/
  | clrerr
  /-- RD, opcode 0x02, format A: `a` is a register number (R252). -/
  | rd (a : Byte)
  /-- WR, opcode 0x03, format A: `a` is a register number (R253). -/
  | wr (a : Byte)
  /-- GF8_ADD, opcode 0x10, format AB (R110). -/
  | gf8Add (a b : Byte)
  /-- GF8_XTIME, opcode 0x11, format A (R111). -/
  | gf8Xtime (a : Byte)
  /-- GF8_MUL, opcode 0x12, format AB (R112). -/
  | gf8Mul (a b : Byte)
  /-- GF8_INV, opcode 0x13, format A (R113). -/
  | gf8Inv (a : Byte)
  /-- GF8_AFFINE, opcode 0x14, format A (R150). -/
  | gf8Affine (a : Byte)
  /-- GF8_SBOX, opcode 0x15, format A (R151). -/
  | gf8Sbox (a : Byte)
  /-- GF128_ADD, opcode 0x18, format N (R114). -/
  | gf128Add
  /-- GF128_MUL, opcode 0x19, format N (R115). -/
  | gf128Mul
  /-- SUBBYTES, opcode 0x20, format N (R152). -/
  | subBytes
  /-- SHIFTROWS, opcode 0x21, format N (R153). -/
  | shiftRows
  /-- MIXCOLUMNS, opcode 0x22, format N (R154). -/
  | mixColumns
  /-- ADDRK, opcode 0x23, format A: `a` is the round index (R155). -/
  | addRk (a : Byte)
  /-- KEY_EXPAND, opcode 0x28, format N (R186). -/
  | keyExpand
  /-- ENCRYPT, opcode 0x29, format N (R187). -/
  | encrypt
  /-- CTR_BASE, opcode 0x30, format V (R201). -/
  | ctrBase (v : Bool)
  /-- CTR_STEP, opcode 0x31, format V (R202). -/
  | ctrStep (v : Bool)
  /-- GCM_SETUP, opcode 0x40, format N (R223). -/
  | gcmSetup
  /-- GCM_AAD, opcode 0x41, format N (R224). -/
  | gcmAad
  /-- GCM_ENC, opcode 0x42, format V (R225). -/
  | gcmEnc (v : Bool)
  /-- GCM_FINAL, opcode 0x43, format V (R226). -/
  | gcmFinal (v : Bool)
  deriving DecidableEq, Repr

end Sys2Proof
end

