-- ==== Sys2Proof/WellFormed.lean ====
section
/-! DEFINITION. Two checks the spec separates (R87). `legalCommand` is the legality of a command WORD,
written from the opcode map and the format masks (R82, R83, R85) and independent of the decoder.
`Instr.wellFormed` is the operand-range check of a decoded command: the register number or round index
names something (R22, R155). An instruction that fails it is legal and has a defined meaning
(BAD_OPERAND); no meaning and no decoding of the model rests on this file. -/

namespace Sys2Proof

/-- The four command formats (R83). -/
inductive Format where
  /-- No operand field. -/
  | n
  /-- Field A. -/
  | a
  /-- Fields A and B. -/
  | ab
  /-- Field V. -/
  | v
  deriving DecidableEq, Repr

/-- The bits of a command word a format fixes: the opcode and every field it does not use (R83). -/
def formatMask : Format → Word
  | .n => 0xFFFFFFFF#32
  | .a => 0xFFFF00FF#32
  | .ab => 0xFF0000FF#32
  | .v => 0xFEFFFFFF#32

/-- The opcode map: opcode and format of each of the 24 commands, in the table's order (R82). -/
def opcodeMap : List (Byte × Format) :=
  [ (0x00#8, .n), (0x01#8, .n), (0x02#8, .a), (0x03#8, .a),
    (0x10#8, .ab), (0x11#8, .a), (0x12#8, .ab), (0x13#8, .a), (0x14#8, .a), (0x15#8, .a),
    (0x18#8, .n), (0x19#8, .n),
    (0x20#8, .n), (0x21#8, .n), (0x22#8, .n), (0x23#8, .a),
    (0x28#8, .n), (0x29#8, .n),
    (0x30#8, .v), (0x31#8, .v),
    (0x40#8, .n), (0x41#8, .n), (0x42#8, .v), (0x43#8, .v) ]

/-- `cmd` is legal iff, for some row of the opcode map, its masked bits are that row's match word: the
opcode in bits [7:0], every other masked bit zero (R83, R85). -/
def legalCommand (cmd : Word) : Bool :=
  opcodeMap.any fun row => cmd &&& formatMask row.2 == row.1.setWidth 32

/-- A register number RD accepts: 0x00..0x0E and 0x10..0x1A (R22, R252). -/
def readableNumber (n : Byte) : Bool :=
  n.toNat ≤ 0x0E || (0x10 ≤ n.toNat && n.toNat ≤ 0x1A)

/-- A register number WR accepts: KEY, IV, ST, EXP and CTRIN (R22, R253). -/
def writableNumber (n : Byte) : Bool :=
  n.toNat ≤ 0x04

/-- The operand that the instruction's fields carry names something: a register RD may read, one WR may
write, a round key 0..10. -/
def Instr.wellFormed : Instr → Bool
  | .rd a => readableNumber a
  | .wr a => writableNumber a
  | .addRk a => a.toNat ≤ 10
  | .nop | .clrerr | .gf128Add | .gf128Mul | .subBytes | .shiftRows | .mixColumns | .keyExpand | .encrypt
  | .gcmSetup | .gcmAad => true
  | .gf8Add _ _ | .gf8Mul _ _ => true
  | .gf8Xtime _ | .gf8Inv _ | .gf8Affine _ | .gf8Sbox _ => true
  | .ctrBase _ | .ctrStep _ | .gcmEnc _ | .gcmFinal _ => true

end Sys2Proof
end

