-- ==== Sys2Proof/Decode.lean ====
section
/-! DEFINITION. The command word's fields, the decoder and the encoder (R81 to R88). Decode reads only
the command word (R85); every word is either one instruction or refused by a named reason. -/

namespace Sys2Proof

/-- Field OP, bits [7:0] (R81). -/
def opField (cmd : Word) : Byte := cmd.extractLsb' 0 8

/-- Field A, bits [15:8] (R81). -/
def aField (cmd : Word) : Byte := cmd.extractLsb' 8 8

/-- Field B, bits [23:16] (R81). -/
def bField (cmd : Word) : Byte := cmd.extractLsb' 16 8

/-- Field V, bit [24] (R81). -/
def vField (cmd : Word) : Bool := cmd.getLsbD 24

/-- Field RSV, bits [31:25], reserved and zero in every legal word (R81, R87). -/
def rsvField (cmd : Word) : BitVec 7 := cmd.extractLsb' 25 7

/-- Why a word is no legal command (R87). Either way the core raises ILLEGAL_CMD. -/
inductive DecodeError where
  /-- Bits [7:0] are no opcode of rule R82. -/
  | reservedOpcode (op : Byte)
  /-- RSV, or a field the opcode's format does not use, is nonzero. -/
  | unusedFieldNonzero (op : Byte)
  deriving DecidableEq, Repr

/-- The instruction `i`, unless a field that must be zero is not. -/
def decodeForm (op : Byte) (unusedZero : Bool) (i : Instr) : Except DecodeError Instr :=
  if unusedZero then .ok i else .error (.unusedFieldNonzero op)

/-- The decoder on the word's fields: the opcode map of rule R82, and the format's fields that must be zero
(R83, format AB as corrected by C9). -/
def decodeFields (op a b : Byte) (v : Bool) (rsv : BitVec 7) : Except DecodeError Instr :=
  let formatN := decodeForm op (a == 0 && b == 0 && !v && rsv == 0)
  let formatA := decodeForm op (b == 0 && !v && rsv == 0)
  let formatAB := decodeForm op (!v && rsv == 0)
  let formatV := decodeForm op (a == 0 && b == 0 && rsv == 0)
  match op with
  | 0x00#8 => formatN .nop
  | 0x01#8 => formatN .clrerr
  | 0x02#8 => formatA (.rd a)
  | 0x03#8 => formatA (.wr a)
  | 0x10#8 => formatAB (.gf8Add a b)
  | 0x11#8 => formatA (.gf8Xtime a)
  | 0x12#8 => formatAB (.gf8Mul a b)
  | 0x13#8 => formatA (.gf8Inv a)
  | 0x14#8 => formatA (.gf8Affine a)
  | 0x15#8 => formatA (.gf8Sbox a)
  | 0x18#8 => formatN .gf128Add
  | 0x19#8 => formatN .gf128Mul
  | 0x20#8 => formatN .subBytes
  | 0x21#8 => formatN .shiftRows
  | 0x22#8 => formatN .mixColumns
  | 0x23#8 => formatA (.addRk a)
  | 0x28#8 => formatN .keyExpand
  | 0x29#8 => formatN .encrypt
  | 0x30#8 => formatV (.ctrBase v)
  | 0x31#8 => formatV (.ctrStep v)
  | 0x40#8 => formatN .gcmSetup
  | 0x41#8 => formatN .gcmAad
  | 0x42#8 => formatV (.gcmEnc v)
  | 0x43#8 => formatV (.gcmFinal v)
  | op => .error (.reservedOpcode op)

/-- The decoder. It reads only the command word (R85). -/
def decode (cmd : Word) : Except DecodeError Instr :=
  decodeFields (opField cmd) (aField cmd) (bField cmd) (vField cmd) (rsvField cmd)

/-- A word laid out from its fields, RSV zero (R81). -/
def commandWord (op a b : Byte) (v : Bool) : Word :=
  0#7 ++ BitVec.ofBool v ++ b ++ a ++ op

/-- The encoder: the one word of each instruction (R82, R84). -/
def encode : Instr → Word
  | .nop => commandWord 0x00#8 0 0 false
  | .clrerr => commandWord 0x01#8 0 0 false
  | .rd a => commandWord 0x02#8 a 0 false
  | .wr a => commandWord 0x03#8 a 0 false
  | .gf8Add a b => commandWord 0x10#8 a b false
  | .gf8Xtime a => commandWord 0x11#8 a 0 false
  | .gf8Mul a b => commandWord 0x12#8 a b false
  | .gf8Inv a => commandWord 0x13#8 a 0 false
  | .gf8Affine a => commandWord 0x14#8 a 0 false
  | .gf8Sbox a => commandWord 0x15#8 a 0 false
  | .gf128Add => commandWord 0x18#8 0 0 false
  | .gf128Mul => commandWord 0x19#8 0 0 false
  | .subBytes => commandWord 0x20#8 0 0 false
  | .shiftRows => commandWord 0x21#8 0 0 false
  | .mixColumns => commandWord 0x22#8 0 0 false
  | .addRk a => commandWord 0x23#8 a 0 false
  | .keyExpand => commandWord 0x28#8 0 0 false
  | .encrypt => commandWord 0x29#8 0 0 false
  | .ctrBase v => commandWord 0x30#8 0 0 v
  | .ctrStep v => commandWord 0x31#8 0 0 v
  | .gcmSetup => commandWord 0x40#8 0 0 false
  | .gcmAad => commandWord 0x41#8 0 0 false
  | .gcmEnc v => commandWord 0x42#8 0 0 v
  | .gcmFinal v => commandWord 0x43#8 0 0 v

/-- The word on the 32 lines of `cmd` for an instruction whose low `nbits` bits are those of `w`, the
bits above them zero. A command is exactly one 32-bit word (R88). -/
def tableWord (nbits w : Nat) : Word := BitVec.ofNat 32 (w % 2 ^ nbits)

/-- What the decoder reads from an instruction whose bits are `w`, numbered as spec/opcode_table.json
numbers them (bit 0 of `cmd` first). -/
def decodeTableWord (nbits w : Nat) : Option Instr :=
  (decode (tableWord nbits w)).toOption

end Sys2Proof
end

