-- ==== Sys2Proof/Machine/State.lean ====
section
/-! DEFINITION. The state of the machine as plain data: the 26 registers of rule R22, the din bus, and the
host transactions that have not been executed yet; its reset value (R50); and the reasons a step can stop. -/

namespace Sys2Proof.Machine

/-- The chain phase, STATUS.MODE (R32). The encodings 6 and 7 are never produced and are not
representable (I11). -/
inductive Mode where
  /-- 0: no chain started since reset. -/
  | idle
  /-- 1: a CTR chain is open. -/
  | ctr
  /-- 2: a GCM chain is open and accepts associated-data blocks. -/
  | gcmAad
  /-- 3: a GCM chain has taken at least one encryption block. -/
  | gcmEnc
  /-- 4: a GCM chain has been finalized. -/
  | gcmDone
  /-- 5: the last chain failed a consistency check. -/
  | failed
  deriving DecidableEq, Repr

/-- The STATUS register 0x06 by its fields (R31). The reserved bits read 0 at all times, so they hold
nothing; `statusWord` in Flags.lean is the 32-bit word RD and the `status` signal show. -/
structure Status where
  /-- MODE, bits [2:0]. -/
  mode : Mode
  /-- KVALID, bit [3]: the round keys are the expansion of KEY. -/
  kvalid : Bool
  /-- LERR, bit [4]: the most recent command failed. -/
  lerr : Bool
  /-- SERR, bit [5], sticky: some command failed since reset or the last CLRERR. -/
  serr : Bool
  /-- ECODE, bits [15:8]: the code of the most recent failure. -/
  ecode : BitVec 8
  deriving DecidableEq, Repr

/-- One host transaction: the `cmd` and `din` signals as presented (R61). -/
structure Transaction where
  /-- The command word. -/
  cmd : Word
  /-- The data operand that accompanies it. -/
  din : Block
  deriving DecidableEq, Repr

/-- What the host does next at the port (R61, R300). -/
inductive HostEvent where
  /-- It presents a command, with `rst` = 0, and waits for its completion. -/
  | transact (t : Transaction)
  /-- It holds `rst` at 1 for a time and then returns it to 0. `aborted` is the command that is in
  flight, or is presented meanwhile, if there is one: the core aborts or does not accept it (R300). -/
  | reset (aborted : Option Transaction)
  deriving DecidableEq, Repr

/-- The machine's state. The first 16 fields are the 26 architectural registers (R22), of which the core
has no more (R41); the last two are the host's side of the port, the model's own. -/
structure State where
  /-- 0x00 KEY: cipher key (R23). -/
  key : Block
  /-- 0x01 IV: iv of the current chain step, J0 in GCM (R24). -/
  iv : Block
  /-- 0x02 ST: working State (R25). -/
  st : Block
  /-- 0x03 EXP: expected output of a verified command (R26). -/
  exp : Block
  /-- 0x04 CTRIN: the host's claimed counter (R27). -/
  ctrin : Word
  /-- 0x05 DOUT: the output register (R28). -/
  dout : Block
  /-- 0x06 STATUS (R31). -/
  status : Status
  /-- 0x07 LIV: the chain's latched iv (R29). -/
  liv : Block
  /-- 0x08 KC: the latched key commitment (R30). -/
  kc : Block
  /-- 0x09 CC: running ciphertext commitment (R34). -/
  cc : Block
  /-- 0x0A CTR: counter of the last CTR block (R35). -/
  ctr : Word
  /-- 0x0B H: GHASH subkey, cipherOf0 (R36). -/
  h : Block
  /-- 0x0C TAG: partialTag, then the final tag (R37). -/
  tag : Block
  /-- 0x0D ACNT: associated-data block count (R38). -/
  acnt : Word
  /-- 0x0E CCNT: ciphertext block count (R39). -/
  ccnt : Word
  /-- 0x10..0x1A RK[0..10]: the round-key file (R40). -/
  rk : Vector Block 11
  /-- The `din` bus of the transaction last accepted (R61): the data operand commands read. -/
  din : Block
  /-- What the host presents from now on, the next event first (R61, R74). -/
  host : List HostEvent
  deriving DecidableEq, Repr

/-- Faults. There are none: every command is a total function and the core never hangs (R325); the
failures the spec calls faults are recorded in STATUS by a next state (R272). A closed type without
constructors says so. -/
inductive Fault where
  deriving DecidableEq, Repr

/-- Refusals. -/
inductive Refusal where
  /-- Raised by an arm of `exec` for an instruction without a meaning; no arm of this model raises it.
  Safe: the model stops where the hardware goes on. -/
  | notModelled (mnemonic : String)
  deriving DecidableEq, Repr

/-- The outcome of one step or one command of this machine. -/
abbrev Result := Host.Outcome State Fault Refusal

/-- The reset state (R50): every register zero, STATUS zero, MODE = IDLE. No transaction is pending: the
core waits for the host's first command (R301). -/
def State.reset : State where
  key := 0#128
  iv := 0#128
  st := 0#128
  exp := 0#128
  ctrin := 0#32
  dout := 0#128
  status := { mode := .idle, kvalid := false, lerr := false, serr := false, ecode := 0#8 }
  liv := 0#128
  kc := 0#128
  cc := 0#128
  ctr := 0#32
  h := 0#128
  tag := 0#128
  acnt := 0#32
  ccnt := 0#32
  rk := #v[0#128, 0#128, 0#128, 0#128, 0#128, 0#128, 0#128, 0#128, 0#128, 0#128, 0#128]
  din := 0#128
  host := []

end Sys2Proof.Machine
end

