-- ==== Sys2Proof/Machine/Flags.lean ====
section
/-! DEFINITION. STATUS: its word, the error codes, and what success, failure and CLRERR do to it
(R31, R32, R270 to R273). -/

namespace Sys2Proof.Machine

/-- The value of STATUS.MODE (R32). -/
def modeNumber : Mode → BitVec 3
  | .idle => 0#3
  | .ctr => 1#3
  | .gcmAad => 2#3
  | .gcmEnc => 3#3
  | .gcmDone => 4#3
  | .failed => 5#3

/-- STATUS as a 32-bit word: ECODE [15:8], SERR [5], LERR [4], KVALID [3], MODE [2:0]; bits [31:16] and
[7:6] read 0 (R31). -/
def statusWord (s : Status) : Word :=
  0#16 ++ s.ecode ++ 0#2 ++ BitVec.ofBool s.serr ++ BitVec.ofBool s.lerr ++ BitVec.ofBool s.kvalid ++
    modeNumber s.mode

/-- The ten errors (R270). -/
inductive ErrorCode where
  /-- A reserved opcode, or a nonzero bit outside the format's fields. -/
  | illegalCmd
  /-- An operand value that names nothing, or a WR CTRIN with nonzero bytes 0..11. -/
  | badOperand
  /-- KVALID = 0 and the command needs round keys. -/
  | noKey
  /-- A chain step in a MODE that does not accept it. -/
  | phase
  /-- A GCM counter at its bound. -/
  | limit
  /-- IV ≠ LIV. -/
  | ivMismatch
  /-- KeyCommit(KEY) ≠ KC. -/
  | keyMismatch
  /-- Cipher(0^128, RK) ≠ H. -/
  | hMismatch
  /-- CTRIN ≠ CTR + 1. -/
  | counterMismatch
  /-- V = 1 and the computed block ≠ EXP. -/
  | outputMismatch
  deriving DecidableEq, Repr

/-- The code written to ECODE (R270). -/
def errorNumber : ErrorCode → Byte
  | .illegalCmd => 1#8
  | .badOperand => 2#8
  | .noKey => 3#8
  | .phase => 4#8
  | .limit => 5#8
  | .ivMismatch => 6#8
  | .keyMismatch => 7#8
  | .hMismatch => 8#8
  | .counterMismatch => 9#8
  | .outputMismatch => 10#8

/-- Category 2, a consistency violation that ends the chain: codes 4 and above (R271, R272). -/
def endsChain (e : ErrorCode) : Bool := 4 ≤ (errorNumber e).toNat

/-- STATUS after `complete`: LERR clear, everything else kept (R273). -/
def succeedStatus (s : Status) : Status := { s with lerr := false }

/-- STATUS after `raise Error(e)`: LERR and SERR set, ECODE the code, MODE FAILED if the error ends the
chain; KVALID kept (R272). -/
def failStatus (e : ErrorCode) (s : Status) : Status :=
  { s with lerr := true, serr := true, ecode := errorNumber e, mode := if endsChain e then .failed else s.mode }

/-- What CLRERR writes: SERR and ECODE clear (R251). -/
def clearErrorStatus (s : Status) : Status := { s with serr := false, ecode := 0#8 }

end Sys2Proof.Machine
end

