-- ==== Sys2Proof/Config.lean ====
section
/-! DEFINITION. What is fixed for one core and is not state (R21), and the parameters the spec leaves
open (R8). An open parameter is an opaque constant: nothing can be proved about its value, so a theorem
about the model holds whatever it is. -/

namespace Sys2Proof

/-- The GF(2^8) reduction constant, the low byte of x^8 + x^4 + x^3 + x + 1 (R21, R101). -/
def Config.gf8Reduction : Byte := 0x1B#8

/-- The affine constant `c` of the S-box (R21, R140). -/
def Config.affineConstant : Byte := 0x63#8

/-- The leading bytes of `Rcon[0..9]` (R21, R182). -/
def Config.rconBytes : List Byte :=
  [0x01#8, 0x02#8, 0x04#8, 0x08#8, 0x10#8, 0x20#8, 0x40#8, 0x80#8, 0x1B#8, 0x36#8]

/-- The GF(2^128) reduction constant, the top byte of `0xE1 · 2^120` (R21, R106). -/
def Config.gf128Reduction : Byte := 0xE1#8

/-- The MixColumns matrix, row by row (R21, R144). -/
def Config.mixMatrix : List (List Byte) :=
  [[2#8, 3#8, 1#8, 1#8], [1#8, 2#8, 3#8, 1#8], [1#8, 1#8, 2#8, 3#8], [3#8, 1#8, 1#8, 2#8]]

/-- OPEN (R8, D10): the one-way key commitment. The source fixes its role and no algorithm. -/
opaque Config.keyCommit : Block → Block

/-- OPEN (R8, D11): one step of the running ciphertext commitment. -/
opaque Config.cipherCommit : Block → Block → Block

/-- OPEN (R8, D11): the seed of the running ciphertext commitment. -/
opaque Config.ccInit : Block

/-- OPEN (R8, R320, D24): the clock cycles the `run`-th transaction takes when its command word is
`cmd`. It is finite; it may depend on the opcode and vary between runs; no rule of the spec and no
definition of the model reads it, because the model represents no time. -/
opaque Config.latency (cmd : Word) (run : Nat) : Nat

end Sys2Proof
end

