-- ==== Sys2Proof/Machine/Galois.lean ====
section
/-! DEFINITION. GF(2^8) and GF(2^128) arithmetic (R100 to R107). -/

namespace Sys2Proof.Machine

/-- GF(2^8) addition (R100). -/
def gfAdd (a b : Byte) : Byte := a ^^^ b

/-- Multiplication by x: shift left one bit and, if a 1 was shifted out, reduce (R101). -/
def xtime (a : Byte) : Byte :=
  if a.getLsbD 7 then (a <<< 1) ^^^ Config.gf8Reduction else a <<< 1

/-- The repeated-doubling loop: `n` iterations from bit `i` of `b`, with result `p` so far and running
value `t` (R102). -/
def multLoop (b : Byte) : (n i : Nat) → (p t : Byte) → Byte
  | 0, _, p, _ => p
  | n + 1, i, p, t => multLoop b n (i + 1) (if b.getLsbD i then p ^^^ t else p) (xtime t)

/-- GF(2^8) multiplication: the bits of `b` from least to most significant (R102). -/
def mult (a b : Byte) : Byte := multLoop b 8 0 0 a

/-- `n` squarings of `sq`, each result multiplied into `acc`. -/
def inverseLoop : (n : Nat) → (sq acc : Byte) → Byte
  | 0, _, acc => acc
  | n + 1, sq, acc => inverseLoop n (mult sq sq) (mult acc (mult sq sq))

/-- GF(2^8) inverse, `a^254 = a^2 · a^4 · ... · a^128`; so `inverse 0 = 0` (R103). -/
def inverse (a : Byte) : Byte := inverseLoop 7 a 1

/-- GF(2^128) addition (R107). -/
def gf128Add (x y : Block) : Block := x ^^^ y

/-- One step of the running value `v`: right shift by one bit, reducing when a 1 leaves the low end; that
is multiplication by x in the reflected order (R105, R106). -/
def gf128Shift (v : Block) : Block :=
  if v.getLsbD 0 then (v >>> 1) ^^^ (Config.gf128Reduction ++ 0#120) else v >>> 1

/-- The GHASH loop over bits `n - 1` down to 0 of `x`, with accumulator `z` and running value `v` (R106). -/
def gf128Loop (x : Block) : (n : Nat) → (z v : Block) → Block
  | 0, z, _ => z
  | n + 1, z, v => gf128Loop x n (if x.getLsbD n then z ^^^ v else z) (gf128Shift v)

/-- `gf128_mul(x, y)`, the source's GHASH_mul: `x` is iterated, `v` starts as `y` (R106). -/
def gf128Mul (x y : Block) : Block := gf128Loop x 128 0 y

end Sys2Proof.Machine
end

