-- ==== Sys2Proof/Machine/Layout.lean ====
section
/-! DEFINITION. Byte order and the views of a block: its bytes, its columns, its State matrix, its
integers (R12, R13, R63 to R67). -/

namespace Sys2Proof.Machine

/-- Byte `k` (0..15) of a block, `B[k]`: bits `[127 - 8k : 120 - 8k]` (R12, R63). -/
def byteAt (b : Block) (k : Nat) : Byte := b.extractLsb' (120 - 8 * k) 8

/-- The block whose byte `k` is `f k` (R12). -/
def blockOf (f : Nat → Byte) : Block :=
  f 0 ++ f 1 ++ f 2 ++ f 3 ++ f 4 ++ f 5 ++ f 6 ++ f 7 ++
  f 8 ++ f 9 ++ f 10 ++ f 11 ++ f 12 ++ f 13 ++ f 14 ++ f 15

/-- The State view: element `s[r,c]`, row `r`, column `c`, is byte `r + 4c` (R12, R64). -/
def elem (s : Block) (r c : Nat) : Byte := byteAt s (r + 4 * c)

/-- Byte `r` (0..3) of a word, byte 0 first (R13). -/
def wordByte (w : Word) (r : Nat) : Byte := w.extractLsb' (24 - 8 * r) 8

/-- The word `[a, b, c, d]` (R12). -/
def wordOf (a b c d : Byte) : Word := a ++ b ++ c ++ d

/-- `col(s, c)`: the word of bytes `4c..4c+3` (R12). -/
def col (s : Block) (c : Nat) : Word := s.extractLsb' (96 - 32 * c) 32

/-- The block with the given columns, column 0 first (R12). -/
def ofCols (c0 c1 c2 c3 : Word) : Block := c0 ++ c1 ++ c2 ++ c3

/-- `int128(B)`, big-endian (R13). -/
def int128 (b : Block) : Nat := b.toNat

/-- `blk128(v)`, the inverse of `int128` (R13). -/
def blk128 (v : Nat) : Block := BitVec.ofNat 128 v

/-- `top64(B)`: the integer of bytes 0..7 (R13, R67). -/
def top64 (b : Block) : Nat := (b.extractLsb' 64 64).toNat

/-- `bottom64(B)`: the integer of bytes 8..15 (R13, R67). -/
def bottom64 (b : Block) : Nat := (b.extractLsb' 0 64).toNat

/-- Bytes 12..15 of a block as a big-endian 32-bit value (R13, R65). -/
def low32 (b : Block) : Word := b.extractLsb' 0 32

/-- Bytes 0..11 of a block (R65). -/
def high96 (b : Block) : BitVec 96 := b.extractLsb' 32 96

/-- An 8-bit result: in byte 0, bytes 1..15 zero (R66). -/
def byteResult (r : Byte) : Block := r ++ 0#120

/-- A 32-bit value in 128-bit form: `0^96 || bytes32(v)` (R65). -/
def wordResult (v : Word) : Block := 0#96 ++ v

end Sys2Proof.Machine
end

