-- ==== Sys2Proof/Machine/Rijndael.lean ====
section
/-! DEFINITION. The S-box, the four round transformations, the key schedule and the block cipher
(R140 to R145, R180 to R184). -/

namespace Sys2Proof.Machine

/-- The affine map: bit `i` of the result is the XOR of bits `i`, `i+4`, `i+5`, `i+6`, `i+7` (mod 8) of the
argument and bit `i` of `c` (R140). A rotation right by `k` brings bit `i+k` to place `i`. -/
def affine (a : Byte) : Byte :=
  a ^^^ a.rotateRight 4 ^^^ a.rotateRight 5 ^^^ a.rotateRight 6 ^^^ a.rotateRight 7 ^^^ Config.affineConstant

/-- The S-box (R141). -/
def sbox (a : Byte) : Byte := affine (inverse a)

/-- SubBytes: the S-box on each of the 16 bytes (R142). -/
def subBytes (s : Block) : Block := blockOf fun k => sbox (byteAt s k)

/-- ShiftRows: output byte `r + 4c` is input byte `r + 4((c + r) mod 4)` (R143). -/
def shiftRows (s : Block) : Block := blockOf fun k => elem s (k % 4) ((k / 4 + k % 4) % 4)

/-- Entry `m` of row `r`, column `j` of the MixColumns matrix (R21, R144). -/
def mixCoefficient (r j : Nat) : Byte := (Config.mixMatrix.getD r []).getD j 0

/-- Byte `r` of a mixed column `[a0, a1, a2, a3]`: the XOR of the terms `mult(aj, m)` of row `r` of the
matrix (R144). -/
def mixByte (w : Word) (r : Nat) : Byte :=
  mult (wordByte w 0) (mixCoefficient r 0) ^^^ mult (wordByte w 1) (mixCoefficient r 1) ^^^
    mult (wordByte w 2) (mixCoefficient r 2) ^^^ mult (wordByte w 3) (mixCoefficient r 3)

/-- MixColumns on one column (R144). -/
def mixColumn (w : Word) : Word := wordOf (mixByte w 0) (mixByte w 1) (mixByte w 2) (mixByte w 3)

/-- MixColumns: the four columns, each by itself (R144). -/
def mixColumns (s : Block) : Block :=
  ofCols (mixColumn (col s 0)) (mixColumn (col s 1)) (mixColumn (col s 2)) (mixColumn (col s 3))

/-- AddRoundKey (R145). -/
def addRoundKey (s k : Block) : Block := s ^^^ k

/-- RotWord: the four bytes rotated left by one (R180). -/
def rotWord (w : Word) : Word := wordOf (wordByte w 1) (wordByte w 2) (wordByte w 3) (wordByte w 0)

/-- SubWord: the S-box on each byte of a word (R181). -/
def subWord (w : Word) : Word :=
  wordOf (sbox (wordByte w 0)) (sbox (wordByte w 1)) (sbox (wordByte w 2)) (sbox (wordByte w 3))

/-- `Rcon[j]`, j = 0..9 (R182). -/
def rcon (j : Nat) : Word := wordOf (Config.rconBytes.getD j 0) 0 0 0

/-- `w[i]` from `w[i-1]` and `w[i-4]` (the loop body of R183). -/
def nextKeyWord (i : Nat) (wPrev wFourBack : Word) : Word :=
  wFourBack ^^^ (if i % 4 = 0 then subWord (rotWord wPrev) ^^^ rcon (i / 4 - 1) else wPrev)

/-- `n` turns of the key-expansion loop. `ws` is `w[0..i-1]`, newest first, so its length is the index of
the next word (R183). -/
def keyWordsLoop : (n : Nat) → (ws : List Word) → List Word
  | 0, ws => ws
  | n + 1, ws => keyWordsLoop n (nextKeyWord ws.length (ws.getD 0 0) (ws.getD 3 0) :: ws)

/-- The expanded key `w[0..43]` (R183). -/
def keyWords (k : Block) : List Word :=
  (keyWordsLoop 40 [col k 3, col k 2, col k 1, col k 0]).reverse

/-- Round key `i` of an expanded key: the words `4i..4i+3` (R183). -/
def roundKeyOf (ws : List Word) (i : Nat) : Block :=
  ofCols (ws.getD (4 * i) 0) (ws.getD (4 * i + 1) 0) (ws.getD (4 * i + 2) 0) (ws.getD (4 * i + 3) 0)

/-- KeyExpansion: the 11 round keys (R183). -/
def keyExpansion (k : Block) : Vector Block 11 :=
  let ws := keyWords k
  #v[roundKeyOf ws 0, roundKeyOf ws 1, roundKeyOf ws 2, roundKeyOf ws 3, roundKeyOf ws 4, roundKeyOf ws 5,
    roundKeyOf ws 6, roundKeyOf ws 7, roundKeyOf ws 8, roundKeyOf ws 9, roundKeyOf ws 10]

/-- One full round, 1 to 9 (R184). -/
def cipherRound (s k : Block) : Block := addRoundKey (mixColumns (shiftRows (subBytes s))) k

/-- `Cipher(P, RK)`: round 0, rounds 1 to 9, and round 10 without MixColumns (R184). -/
def cipher (p : Block) (rk : Vector Block 11) : Block :=
  let s0 := addRoundKey p rk[0]
  let s9 := [rk[1], rk[2], rk[3], rk[4], rk[5], rk[6], rk[7], rk[8], rk[9]].foldl cipherRound s0
  addRoundKey (shiftRows (subBytes s9)) rk[10]

/-- `inc(B, n)`: add `n` to the big-endian integer of bytes 12..15, modulo 2^32; bytes 0..11 stay (R200). -/
def inc (b : Block) (n : Nat) : Block := high96 b ++ BitVec.ofNat 32 ((low32 b).toNat + n)

/-- `lenblock(a, c)`: two big-endian 64-bit bit lengths (R220). -/
def lenblock (a c : Nat) : Block := BitVec.ofNat 64 (a * 128) ++ BitVec.ofNat 64 (c * 128)

end Sys2Proof.Machine
end

