-- ==== Sys2Proof/Machine/Ops.lean ====
section
/-! DEFINITION. The shared operations: how a command ends (`complete`, `raise`; R16, R272, R273), the checks
a command makes (R221, R275), writing DOUT (R28), and the host port (R61, R62, R300). The core has no trap
entry and no return (R278, R279): `raise` is the whole of taking an error. -/

namespace Sys2Proof.Machine

/-- The state `complete` ends with: the command's writes `s`, and LERR clear (R273). -/
def succeed (s : State) : State := { s with status := succeedStatus s.status }

/-- The state `raise Error(e)` ends with, from the state `s` BEFORE the command: every register write of the
command is discarded and only STATUS records the error (R272). -/
def failWith (e : ErrorCode) (s : State) : State := { s with status := failStatus e s.status }

/-- `complete` (R16, R273). -/
def complete (s : State) : Result := .next (succeed s)

/-- `raise Error(e)` (R16, R272). -/
def raise (e : ErrorCode) (s : State) : Result := .next (failWith e s)

/-- One check: the error `e` if `bad`, and none otherwise. -/
def failIf (bad : Bool) (e : ErrorCode) : Option ErrorCode := if bad then some e else none

/-- The first check that fails, in the order listed (R275). -/
def firstFailure : List (Option ErrorCode) → Option ErrorCode
  | [] => none
  | none :: rest => firstFailure rest
  | some e :: _ => some e

/-- A command's end: the first failing check is raised over the state `s` before the command, and if none
fails the command completes with the state `t` it writes (R16, R275). -/
def checked (checks : List (Option ErrorCode)) (s t : State) : Result :=
  match firstFailure checks with
  | some e => raise e s
  | none => complete t

/-- NO_KEY if STATUS.KVALID = 0 (R270, R311). -/
def keyCheck (s : State) : Option ErrorCode := failIf (!s.status.kvalid) .noKey

/-- PHASE if STATUS.MODE is none of `modes` (R222, R270). -/
def phaseCheck (modes : List Mode) (s : State) : Option ErrorCode :=
  failIf (decide (s.status.mode ∉ modes)) .phase

/-- IV_MISMATCH if IV ≠ LIV: check (a) of a chain step (R202, R221). -/
def ivCheck (s : State) : Option ErrorCode := failIf (decide (s.iv ≠ s.liv)) .ivMismatch

/-- KEY_MISMATCH if KeyCommit(KEY) ≠ KC: check (c) of a chain step (R202, R221). -/
def commitCheck (s : State) : Option ErrorCode :=
  failIf (decide (Config.keyCommit s.key ≠ s.kc)) .keyMismatch

/-- H_MISMATCH if Cipher(0^128, RK) ≠ H: the cipherOf0 check (R221). -/
def hCheck (s : State) : Option ErrorCode := failIf (decide (cipher 0#128 s.rk ≠ s.h)) .hMismatch

/-- COUNTER_MISMATCH if CTRIN ≠ CTR + 1 as integers, not wrapped: check (b) of a CTR step (R202). -/
def counterCheck (s : State) : Option ErrorCode :=
  failIf (decide (s.ctrin.toNat ≠ s.ctr.toNat + 1)) .counterMismatch

/-- OUTPUT_MISMATCH if the verify flag is set and the block the command would write to DOUT is not EXP
(R86). -/
def outputCheck (v : Bool) (out : Block) (s : State) : Option ErrorCode :=
  failIf (v && decide (out ≠ s.exp)) .outputMismatch

/-- `gcm_check()` (R221): the consistency checks every GCM inductive step makes, in this order. -/
def gcmChecks (s : State) : List (Option ErrorCode) := [ivCheck s, commitCheck s, hCheck s]

/-- `DOUT <- v` (R28). -/
def writeDout (v : Block) (s : State) : State := { s with dout := v }

/-- A transaction is accepted: its `din` is on the bus and the host's later events remain (R61). -/
def accept (t : Transaction) (rest : List HostEvent) (s : State) : State := { s with din := t.din, host := rest }

/-- The state when `rst` has returned to 0: every register at its reset value, whatever ran before, and only
the host's later events remain (R300, R301). -/
def resetState (rest : List HostEvent) : State := { State.reset with host := rest }

/-- The `dout` signal between transactions (R62). -/
def doutSignal (s : State) : Block := s.dout

/-- The `status` signal between transactions (R62). -/
def statusSignal (s : State) : Word := statusWord s.status

end Sys2Proof.Machine
end

