-- ==== Sys2Proof/Machine/Operands.lean ====
section
/-! DEFINITION. The operand forms: the register-number space of RD and WR (R22, R252, R253) and the round
index of ADDRK (R155). Byte operands and the verify flag are used as the decoder gives them (R84), and the
128-bit operand is the `din` field of the state. -/

namespace Sys2Proof.Machine

/-- The 26 architectural registers by name (R22). -/
inductive Reg where
  | key | iv | st | exp | ctrin | dout | status | liv | kc | cc | ctr | h | tag | acnt | ccnt
  /-- RK[i]. -/
  | rk (i : Fin 11)
  deriving DecidableEq, Repr

/-- The register-number map (R22). 0x0F and 0x1B..0xFF name no register. -/
def regOfNumber (n : Byte) : Option Reg :=
  match n with
  | 0x00#8 => some .key
  | 0x01#8 => some .iv
  | 0x02#8 => some .st
  | 0x03#8 => some .exp
  | 0x04#8 => some .ctrin
  | 0x05#8 => some .dout
  | 0x06#8 => some .status
  | 0x07#8 => some .liv
  | 0x08#8 => some .kc
  | 0x09#8 => some .cc
  | 0x0A#8 => some .ctr
  | 0x0B#8 => some .h
  | 0x0C#8 => some .tag
  | 0x0D#8 => some .acnt
  | 0x0E#8 => some .ccnt
  | 0x10#8 => some (.rk 0)
  | 0x11#8 => some (.rk 1)
  | 0x12#8 => some (.rk 2)
  | 0x13#8 => some (.rk 3)
  | 0x14#8 => some (.rk 4)
  | 0x15#8 => some (.rk 5)
  | 0x16#8 => some (.rk 6)
  | 0x17#8 => some (.rk 7)
  | 0x18#8 => some (.rk 8)
  | 0x19#8 => some (.rk 9)
  | 0x1A#8 => some (.rk 10)
  | _ => none

/-- A register's value in the 128-bit form RD gives it; a 32-bit register is `0^96 || bytes32(v)` (R65,
R252). -/
def readReg (r : Reg) (s : State) : Block :=
  match r with
  | .key => s.key
  | .iv => s.iv
  | .st => s.st
  | .exp => s.exp
  | .ctrin => wordResult s.ctrin
  | .dout => s.dout
  | .status => wordResult (statusWord s.status)
  | .liv => s.liv
  | .kc => s.kc
  | .cc => s.cc
  | .ctr => wordResult s.ctr
  | .h => s.h
  | .tag => s.tag
  | .acnt => wordResult s.acnt
  | .ccnt => wordResult s.ccnt
  | .rk i => s.rk[i]

/-- The writes of `WR n ; din=v`, or BAD_OPERAND: only KEY, IV, ST, EXP and CTRIN are host-writable, a write
of KEY clears KVALID, and CTRIN takes bytes 12..15 if bytes 0..11 are zero (R253). -/
def writeReg (n : Byte) (v : Block) (s : State) : Except ErrorCode State :=
  match n with
  | 0x00#8 => .ok { s with key := v, status := { s.status with kvalid := false } }
  | 0x01#8 => .ok { s with iv := v }
  | 0x02#8 => .ok { s with st := v }
  | 0x03#8 => .ok { s with exp := v }
  | 0x04#8 => if high96 v = 0#96 then .ok { s with ctrin := low32 v } else .error .badOperand
  | _ => .error .badOperand

/-- The round key an ADDRK index names: 0..10 (R155). -/
def roundIndex (n : Byte) : Option (Fin 11) :=
  if h : n.toNat < 11 then some ⟨n.toNat, h⟩ else none

end Sys2Proof.Machine
end

