-- ==== Sys2Proof/Machine/CipherCommands.lean ====
section
/-! DEFINITION. KEY_EXPAND and ENCRYPT (R186, R187). -/

namespace Sys2Proof.Machine

/-- KEY_EXPAND fills the round-key file from KEY and sets KVALID; DOUT and MODE stay (R186). -/
def execKeyExpand (s : State) : Result :=
  complete { s with rk := keyExpansion s.key, status := { s.status with kvalid := true } }

/-- ENCRYPT encrypts din with the round keys (R187). -/
def execEncrypt (s : State) : Result := checked [keyCheck s] s (writeDout (cipher s.din s.rk) s)

end Sys2Proof.Machine
end

