-- ==== Sys2Proof/Machine/FieldCommands.lean ====
section
/-! DEFINITION. The field-arithmetic commands GF8_ADD, GF8_XTIME, GF8_MUL, GF8_INV, GF8_AFFINE, GF8_SBOX,
GF128_ADD and GF128_MUL (R110 to R115, R150, R151). No check but decode's; ST is read, never written. -/

namespace Sys2Proof.Machine

/-- GF8_ADD (R110). -/
def execGf8Add (a b : Byte) (s : State) : Result := complete (writeDout (byteResult (gfAdd a b)) s)

/-- GF8_XTIME (R111). -/
def execGf8Xtime (a : Byte) (s : State) : Result := complete (writeDout (byteResult (xtime a)) s)

/-- GF8_MUL (R112). -/
def execGf8Mul (a b : Byte) (s : State) : Result := complete (writeDout (byteResult (mult a b)) s)

/-- GF8_INV; 0 maps to 0 and is no error (R113). -/
def execGf8Inv (a : Byte) (s : State) : Result := complete (writeDout (byteResult (inverse a)) s)

/-- GF8_AFFINE (R150). -/
def execGf8Affine (a : Byte) (s : State) : Result := complete (writeDout (byteResult (affine a)) s)

/-- GF8_SBOX (R151). -/
def execGf8Sbox (a : Byte) (s : State) : Result := complete (writeDout (byteResult (sbox a)) s)

/-- GF128_ADD: ST and din (R114). -/
def execGf128Add (s : State) : Result := complete (writeDout (gf128Add s.st s.din) s)

/-- GF128_MUL: ST is the iterated operand, din the running one (R115). -/
def execGf128Mul (s : State) : Result := complete (writeDout (gf128Mul s.st s.din) s)

end Sys2Proof.Machine
end

