-- ==== Sys2Proof/Machine/CtrCommands.lean ====
section
/-! DEFINITION. The CTR chain: CTR_BASE and CTR_STEP (R200 to R202). -/

namespace Sys2Proof.Machine

/-- The ciphertext block of counter `n` from the iv block: `din ⊕ Cipher(inc(iv, n), RK)` (R201, R202,
R225). -/
def counterModeBlock (iv : Block) (n : Nat) (s : State) : Block := s.din ^^^ cipher (inc iv n) s.rk

/-- CTR_BASE starts a chain in any MODE and encrypts block 0 (R201). -/
def execCtrBase (v : Bool) (s : State) : Result :=
  let c := counterModeBlock s.iv 0 s
  checked [keyCheck s, outputCheck v c s] s
    { s with
      liv := s.iv
      kc := Config.keyCommit s.key
      ctr := 0#32
      cc := Config.cipherCommit Config.ccInit c
      status := { s.status with mode := .ctr }
      dout := c }

/-- CTR_STEP checks the chain and encrypts block CTRIN (R202). -/
def execCtrStep (v : Bool) (s : State) : Result :=
  let c := counterModeBlock s.liv s.ctrin.toNat s
  checked [keyCheck s, phaseCheck [.ctr] s, ivCheck s, commitCheck s, counterCheck s, outputCheck v c s] s
    { s with ctr := s.ctrin, cc := Config.cipherCommit s.cc c, dout := c }

end Sys2Proof.Machine
end

