-- ==== Sys2Proof/Machine/GcmCommands.lean ====
section
/-! DEFINITION. The GCM chain: GCM_SETUP, GCM_AAD, GCM_ENC and GCM_FINAL (R220 to R226). -/

namespace Sys2Proof.Machine

/-- One GHASH fold: `GHASH_mul(acc XOR x, H)` (R224 to R226). -/
def ghashFold (h acc x : Block) : Block := gf128Mul (acc ^^^ x) h

/-- LIMIT for GCM_AAD: ACNT = 2^32 - 1 (R224). -/
def aadLimitCheck (s : State) : Option ErrorCode := failIf (decide (s.acnt.toNat = 2 ^ 32 - 1)) .limit

/-- LIMIT for GCM_ENC: CCNT ≥ 2^32 - 2 (R225). -/
def encLimitCheck (s : State) : Option ErrorCode := failIf (decide (2 ^ 32 - 2 ≤ s.ccnt.toNat)) .limit

/-- GCM_SETUP starts a chain in any MODE; din is ignored (R223). -/
def execGcmSetup (s : State) : Result :=
  let h := cipher 0#128 s.rk
  checked [keyCheck s] s
    { s with
      h := h
      liv := s.iv
      kc := Config.keyCommit s.key
      tag := 0#128
      acnt := 0#32
      ccnt := 0#32
      status := { s.status with mode := .gcmAad }
      dout := h }

/-- GCM_AAD folds one associated-data block (R224). -/
def execGcmAad (s : State) : Result :=
  let y := ghashFold s.h s.tag s.din
  checked ([keyCheck s, phaseCheck [.gcmAad] s, aadLimitCheck s] ++ gcmChecks s) s
    { s with tag := y, acnt := s.acnt + 1, dout := y }

/-- GCM_ENC encrypts one block and folds its ciphertext; data counters start at `iv + 1` (R225). -/
def execGcmEnc (v : Bool) (s : State) : Result :=
  let c := counterModeBlock s.liv (s.ccnt.toNat + 1) s
  checked ([keyCheck s, phaseCheck [.gcmAad, .gcmEnc] s, encLimitCheck s] ++ gcmChecks s ++ [outputCheck v c s]) s
    { s with
      tag := ghashFold s.h s.tag c
      ccnt := s.ccnt + 1
      status := { s.status with mode := .gcmEnc }
      dout := c }

/-- GCM_FINAL folds the length block and masks the result into the tag (R226). -/
def execGcmFinal (v : Bool) (s : State) : Result :=
  let t := ghashFold s.h s.tag (lenblock s.acnt.toNat s.ccnt.toNat) ^^^ cipher s.liv s.rk
  checked ([keyCheck s, phaseCheck [.gcmAad, .gcmEnc] s] ++ gcmChecks s ++ [outputCheck v t s]) s
    { s with tag := t, status := { s.status with mode := .gcmDone }, dout := t }

end Sys2Proof.Machine
end

