-- ==== Sys2Proof/Machine/HostCommands.lean ====
section
/-! DEFINITION. The host commands NOP, CLRERR, RD and WR (R250 to R253). -/

namespace Sys2Proof.Machine

/-- NOP does nothing but clear LERR (R250). -/
def execNop (s : State) : Result := complete s

/-- CLRERR clears SERR and ECODE; MODE stays (R251). -/
def execClrerr (s : State) : Result := complete { s with status := clearErrorStatus s.status }

/-- RD copies a register, as it stood before the command, into DOUT (R252). -/
def execRd (n : Byte) (s : State) : Result :=
  match regOfNumber n with
  | none => raise .badOperand s
  | some r => complete (writeDout (readReg r s) s)

/-- WR writes a host-writable register from din (R253). -/
def execWr (n : Byte) (s : State) : Result :=
  match writeReg n s.din s with
  | .error e => raise e s
  | .ok t => complete t

end Sys2Proof.Machine
end

