-- ==== Sys2Proof/Machine/RoundCommands.lean ====
section
/-! DEFINITION. The round-transform commands SUBBYTES, SHIFTROWS, MIXCOLUMNS and ADDRK, in place on ST with
the new ST copied to DOUT (R152 to R155). -/

namespace Sys2Proof.Machine

/-- `ST <- v; DOUT <- ST`. -/
def writeSt (v : Block) (s : State) : State := { s with st := v, dout := v }

/-- SUBBYTES (R152). -/
def execSubBytes (s : State) : Result := complete (writeSt (subBytes s.st) s)

/-- SHIFTROWS (R153). -/
def execShiftRows (s : State) : Result := complete (writeSt (shiftRows s.st) s)

/-- MIXCOLUMNS (R154). -/
def execMixColumns (s : State) : Result := complete (writeSt (mixColumns s.st) s)

/-- ADDRK: the index is checked before the key (R155, R275). -/
def execAddRk (n : Byte) (s : State) : Result :=
  match roundIndex n with
  | none => raise .badOperand s
  | some i => checked [keyCheck s] s (writeSt (addRoundKey s.st s.rk[i]) s)

end Sys2Proof.Machine
end

