-- ==== Sys2Proof/Machine/Dispatch.lean ====
section
/-! DEFINITION. One arm per command, each a direct call of its meaning. -/

namespace Sys2Proof.Machine

def exec (i : Instr) (s : State) : Host.Outcome State Fault Refusal :=
  match i with
  | .nop => Sys2Proof.Machine.execNop s
  | .clrerr => Sys2Proof.Machine.execClrerr s
  | .rd a => Sys2Proof.Machine.execRd a s
  | .wr a => Sys2Proof.Machine.execWr a s
  | .gf8Add a b => Sys2Proof.Machine.execGf8Add a b s
  | .gf8Xtime a => Sys2Proof.Machine.execGf8Xtime a s
  | .gf8Mul a b => Sys2Proof.Machine.execGf8Mul a b s
  | .gf8Inv a => Sys2Proof.Machine.execGf8Inv a s
  | .gf8Affine a => Sys2Proof.Machine.execGf8Affine a s
  | .gf8Sbox a => Sys2Proof.Machine.execGf8Sbox a s
  | .gf128Add => Sys2Proof.Machine.execGf128Add s
  | .gf128Mul => Sys2Proof.Machine.execGf128Mul s
  | .subBytes => Sys2Proof.Machine.execSubBytes s
  | .shiftRows => Sys2Proof.Machine.execShiftRows s
  | .mixColumns => Sys2Proof.Machine.execMixColumns s
  | .addRk a => Sys2Proof.Machine.execAddRk a s
  | .keyExpand => Sys2Proof.Machine.execKeyExpand s
  | .encrypt => Sys2Proof.Machine.execEncrypt s
  | .ctrBase v => Sys2Proof.Machine.execCtrBase v s
  | .ctrStep v => Sys2Proof.Machine.execCtrStep v s
  | .gcmSetup => Sys2Proof.Machine.execGcmSetup s
  | .gcmAad => Sys2Proof.Machine.execGcmAad s
  | .gcmEnc v => Sys2Proof.Machine.execGcmEnc v s
  | .gcmFinal v => Sys2Proof.Machine.execGcmFinal v s

end Sys2Proof.Machine
end

