-- ==== Sys2Proof/Machine/Step.lean ====
section
/-! DEFINITION. One step of the machine: the host's next event (R61, R80, R300). -/

namespace Sys2Proof.Machine

/-- One step. With no event the core idles and keeps all state (R285, R301). A reset gives the reset state
(R300). A transaction is one command, executed whole: decoded, and run or reported as ILLEGAL_CMD (R80,
R85). -/
def step (s : State) : Host.Outcome State Fault Refusal :=
  match s.host with
  | [] => .next s
  | .reset _ :: rest => .next (resetState rest)
  | .transact t :: rest =>
    match decode t.cmd with
    | .ok i => exec i (accept t rest s)
    | .error _ => raise .illegalCmd (accept t rest s)

/-- `s` with the host about to present the command word whose bits are `w`, before everything it already
has to do, with the `din` bus as it stands. -/
def State.withFetchWord (s : State) (nbits w : Nat) : State :=
  { s with host := .transact { cmd := tableWord nbits w, din := s.din } :: s.host }

end Sys2Proof.Machine
end

