-- ==== Sys2Proof/Machine/Assembler.lean ====
section
/-! DEFINITION. The spec's notation for host programs: assembler lines (R89) and the four
pseudo-instructions, each an exact list of transactions (R90). -/

namespace Sys2Proof.Machine

/-- The letter of a hexadecimal digit. -/
def hexDigit (n : Nat) : String :=
  ["0", "1", "2", "3", "4", "5", "6", "7", "8", "9", "A", "B", "C", "D", "E", "F"].getD n "?"

/-- A byte operand, `0xHH` (R89). -/
def byteText (b : Byte) : String := "0x" ++ hexDigit (b.toNat / 16) ++ hexDigit (b.toNat % 16)

/-- A number from 0 to 10 in decimal (R89). -/
def indexText (n : Nat) : String :=
  ["0", "1", "2", "3", "4", "5", "6", "7", "8", "9", "10"].getD n "?"

/-- A register's name (R22, R89). -/
def regText : Reg → String
  | .key => "KEY"
  | .iv => "IV"
  | .st => "ST"
  | .exp => "EXP"
  | .ctrin => "CTRIN"
  | .dout => "DOUT"
  | .status => "STATUS"
  | .liv => "LIV"
  | .kc => "KC"
  | .cc => "CC"
  | .ctr => "CTR"
  | .h => "H"
  | .tag => "TAG"
  | .acnt => "ACNT"
  | .ccnt => "CCNT"
  | .rk i => "RK" ++ indexText i.val

/-- A register-number operand: by name where it has one, else `0xHH` (R89). -/
def regNumberText (n : Byte) : String :=
  match regOfNumber n with
  | some r => regText r
  | none => byteText n

/-- A round index: decimal from 0 to 10, and `0xHH` for a byte that is none (R89, R155). -/
def roundIndexText (n : Byte) : String := if n.toNat ≤ 10 then indexText n.toNat else byteText n

/-- The verify suffix (R89). -/
def verifyText (v : Bool) : String := if v then ".V" else ""

/-- The assembler line of an instruction, without its `din` part (R89). -/
def instrText : Instr → String
  | .nop => "NOP"
  | .clrerr => "CLRERR"
  | .rd a => "RD " ++ regNumberText a
  | .wr a => "WR " ++ regNumberText a
  | .gf8Add a b => "GF8_ADD " ++ byteText a ++ ", " ++ byteText b
  | .gf8Xtime a => "GF8_XTIME " ++ byteText a
  | .gf8Mul a b => "GF8_MUL " ++ byteText a ++ ", " ++ byteText b
  | .gf8Inv a => "GF8_INV " ++ byteText a
  | .gf8Affine a => "GF8_AFFINE " ++ byteText a
  | .gf8Sbox a => "GF8_SBOX " ++ byteText a
  | .gf128Add => "GF128_ADD"
  | .gf128Mul => "GF128_MUL"
  | .subBytes => "SUBBYTES"
  | .shiftRows => "SHIFTROWS"
  | .mixColumns => "MIXCOLUMNS"
  | .addRk a => "ADDRK " ++ roundIndexText a
  | .keyExpand => "KEY_EXPAND"
  | .encrypt => "ENCRYPT"
  | .ctrBase v => "CTR_BASE" ++ verifyText v
  | .ctrStep v => "CTR_STEP" ++ verifyText v
  | .gcmSetup => "GCM_SETUP"
  | .gcmAad => "GCM_AAD"
  | .gcmEnc v => "GCM_ENC" ++ verifyText v
  | .gcmFinal v => "GCM_FINAL" ++ verifyText v

/-- The transaction an assembler line stands for: the instruction's word and its `din`; a line without a
`din` part carries 0^128, which the command ignores (R84, R89). -/
def assemble (i : Instr) (din : Option Block) : Transaction :=
  { cmd := encode i, din := din.getD 0#128 }

/-- `SETKEY k` (R90). -/
def setKey (k : Block) : List Transaction := [assemble (.wr 0x00#8) (some k), assemble .keyExpand none]

/-- `SETCTR n` (R90). -/
def setCtr (n : Word) : List Transaction := [assemble (.wr 0x04#8) (some (0#96 ++ n))]

/-- `RDSTATUS` (R90). -/
def rdStatus : List Transaction := [assemble (.rd 0x06#8) none]

/-- `EXPECT x` (R90). -/
def expect (x : Block) : List Transaction := [assemble (.wr 0x03#8) (some x)]

end Sys2Proof.Machine
end

