-- ==== Sys2Proof/Safety.lean ====
section
/-! DEFINITION. The terms in which claims about the machine are stated: what a completed and a failed
command leave, the order of the checks, the MODE table, the invariants, the chain records, the
observation of a run, and polynomial arithmetic. Nothing the machine computes rests on this file. -/

namespace Sys2Proof.Safety

open Sys2Proof.Machine

/-- The state `s`, completed: LERR is clear (R273). -/
def completedWith (s : State) : State := { s with status := { s.status with lerr := false } }

/-- What a failure with error code `code` leaves of the state `s` before the command: LERR and SERR set,
ECODE the code, MODE FAILED from code 4 on, everything else unchanged (R272). -/
def failedWith (code : Nat) (s : State) : State :=
  { s with
    status :=
      { s.status with
        lerr := true
        serr := true
        ecode := BitVec.ofNat 8 code
        mode := if 4 ≤ code then .failed else s.status.mode } }

/-- The encoding line of a command's rule: exactly the words with `cmd AND mask = pattern` decode to the
instruction `form` reads from the word's fields, and a transaction whose word has the command's opcode and is
none of them ends with ILLEGAL_CMD (R83, R85). -/
def HasEncoding (mask pattern : Word) (form : Word → Instr) : Prop :=
  ∀ cmd : Word,
    (decode cmd = .ok (form cmd) ↔ cmd &&& mask = pattern) ∧
    (opField cmd = opField pattern → cmd &&& mask ≠ pattern →
      ∀ (s : State) (din : Block) (rest : List HostEvent),
        s.host = .transact { cmd := cmd, din := din } :: rest →
        step s = .next (failedWith 1 { s with din := din, host := rest }))

/-- A next state with `f` applied, and a stop as it is. -/
def mapNext (f : State → State) : Result → Result
  | .next t => .next (f t)
  | .fault e => .fault e
  | .refused e => .refused e

/-- The command needs round keys and names an existing one: it fails with NO_KEY while KVALID = 0 (R270,
R311). -/
def needsKey : Instr → Bool
  | .addRk a => a.toNat ≤ 10
  | .encrypt | .gcmSetup | .gcmAad => true
  | .ctrBase _ | .ctrStep _ | .gcmEnc _ | .gcmFinal _ => true
  | .nop | .clrerr | .gf128Add | .gf128Mul | .subBytes | .shiftRows | .mixColumns | .keyExpand => false
  | .rd _ | .wr _ | .gf8Xtime _ | .gf8Inv _ | .gf8Affine _ | .gf8Sbox _ => false
  | .gf8Add _ _ | .gf8Mul _ _ => false

/-- The command reads `din` (the operand lines of R110 to R253). -/
def usesDin : Instr → Bool
  | .wr _ | .gf128Add | .gf128Mul | .encrypt | .ctrBase _ | .ctrStep _ | .gcmAad | .gcmEnc _ => true
  | .nop | .clrerr | .subBytes | .shiftRows | .mixColumns | .keyExpand | .gcmSetup => false
  | .rd _ | .gf8Xtime _ | .gf8Inv _ | .gf8Affine _ | .gf8Sbox _ | .addRk _ | .gcmFinal _ => false
  | .gf8Add _ _ | .gf8Mul _ _ => false

/-- The command reads or overwrites EXP: RD EXP, WR EXP, and a command with V = 1 (R26). -/
def touchesExp : Instr → Bool
  | .rd a | .wr a => a == 0x03#8
  | .ctrBase v | .ctrStep v | .gcmEnc v | .gcmFinal v => v
  | .nop | .clrerr | .gf128Add | .gf128Mul | .subBytes | .shiftRows | .mixColumns | .keyExpand | .encrypt => false
  | .gcmSetup | .gcmAad => false
  | .gf8Xtime _ | .gf8Inv _ | .gf8Affine _ | .gf8Sbox _ | .addRk _ => false
  | .gf8Add _ _ | .gf8Mul _ _ => false

/-- The command reads or overwrites CTRIN: RD CTRIN, WR CTRIN and CTR_STEP (R27). -/
def touchesCtrin : Instr → Bool
  | .rd a | .wr a => a == 0x04#8
  | .ctrStep _ => true
  | .ctrBase _ | .gcmEnc _ | .gcmFinal _ => false
  | .nop | .clrerr | .gf128Add | .gf128Mul | .subBytes | .shiftRows | .mixColumns | .keyExpand | .encrypt => false
  | .gcmSetup | .gcmAad => false
  | .gf8Xtime _ | .gf8Inv _ | .gf8Affine _ | .gf8Sbox _ | .addRk _ => false
  | .gf8Add _ _ | .gf8Mul _ _ => false

/-! ### The order of the checks (R275) -/

/-- A check after decode: the code it reports, and whether it fails. -/
abbrev Check := Nat × Bool

/-- gcm_check (R221). -/
def gcmCheckList (s : State) : List Check :=
  [(6, s.iv != s.liv), (7, Config.keyCommit s.key != s.kc), (8, cipher 0#128 s.rk != s.h)]

/-- The checks of each command after decode, in the per-command order of R275. -/
def checkList (i : Instr) (s : State) : List Check :=
  match i with
  | .rd n => [(2, !readableNumber n)]
  | .wr n => [(2, !writableNumber n || (n == 0x04#8 && s.din.extractLsb' 32 96 != 0#96))]
  | .addRk n => [(2, 10 < n.toNat), (3, !s.status.kvalid)]
  | .encrypt => [(3, !s.status.kvalid)]
  | .ctrBase v =>
    [(3, !s.status.kvalid), (10, v && (s.din ^^^ cipher (inc s.iv 0) s.rk) != s.exp)]
  | .ctrStep v =>
    [(3, !s.status.kvalid), (4, s.status.mode != .ctr), (6, s.iv != s.liv),
      (7, Config.keyCommit s.key != s.kc), (9, s.ctrin.toNat != s.ctr.toNat + 1),
      (10, v && (s.din ^^^ cipher (inc s.liv s.ctrin.toNat) s.rk) != s.exp)]
  | .gcmSetup => [(3, !s.status.kvalid)]
  | .gcmAad =>
    [(3, !s.status.kvalid), (4, s.status.mode != .gcmAad), (5, s.acnt.toNat == 4294967295)] ++ gcmCheckList s
  | .gcmEnc v =>
    [(3, !s.status.kvalid), (4, s.status.mode != .gcmAad && s.status.mode != .gcmEnc),
      (5, 4294967294 ≤ s.ccnt.toNat)] ++ gcmCheckList s ++
    [(10, v && (s.din ^^^ cipher (inc s.liv (s.ccnt.toNat + 1)) s.rk) != s.exp)]
  | .gcmFinal v =>
    [(3, !s.status.kvalid), (4, s.status.mode != .gcmAad && s.status.mode != .gcmEnc)] ++ gcmCheckList s ++
    [(10, v && (gf128Mul (s.tag ^^^ lenblock s.acnt.toNat s.ccnt.toNat) s.h ^^^ cipher s.liv s.rk) != s.exp)]
  | .nop | .clrerr | .gf128Add | .gf128Mul | .subBytes | .shiftRows | .mixColumns | .keyExpand => []
  | .gf8Xtime _ | .gf8Inv _ | .gf8Affine _ | .gf8Sbox _ => []
  | .gf8Add _ _ | .gf8Mul _ _ => []

/-! ### The chain state machine (R222, R276) -/

/-- MODE after the command succeeds in mode `m`. -/
def modeOnSuccess : Instr → Mode → Mode
  | .ctrBase _, _ => .ctr
  | .ctrStep _, _ => .ctr
  | .gcmSetup, _ => .gcmAad
  | .gcmAad, _ => .gcmAad
  | .gcmEnc _, _ => .gcmEnc
  | .gcmFinal _, _ => .gcmDone
  | .nop, m | .clrerr, m | .rd _, m | .wr _, m => m
  | .gf8Add _ _, m | .gf8Mul _ _, m | .gf8Xtime _, m | .gf8Inv _, m | .gf8Affine _, m | .gf8Sbox _, m => m
  | .gf128Add, m | .gf128Mul, m => m
  | .subBytes, m | .shiftRows, m | .mixColumns, m | .addRk _, m | .keyExpand, m | .encrypt, m => m

/-- The modes a command is accepted in; any, for all but the inductive chain steps. -/
def acceptedIn : Instr → Mode → Bool
  | .ctrStep _, m => m == .ctr
  | .gcmAad, m => m == .gcmAad
  | .gcmEnc _, m => m == .gcmAad || m == .gcmEnc
  | .gcmFinal _, m => m == .gcmAad || m == .gcmEnc
  | .nop, _ | .clrerr, _ | .rd _, _ | .wr _, _ => true
  | .gf8Add _ _, _ | .gf8Mul _ _, _ | .gf8Xtime _, _ | .gf8Inv _, _ | .gf8Affine _, _ | .gf8Sbox _, _ => true
  | .gf128Add, _ | .gf128Mul, _ => true
  | .subBytes, _ | .shiftRows, _ | .mixColumns, _ | .addRk _, _ | .keyExpand, _ | .encrypt, _ => true
  | .ctrBase _, _ | .gcmSetup, _ => true

/-- The commands that can end a chain with a category-2 error (R270, R276). -/
def canEndChain : Instr → Bool
  | .ctrBase _ | .ctrStep _ | .gcmAad | .gcmEnc _ | .gcmFinal _ => true
  | .gcmSetup => false
  | .nop | .clrerr | .rd _ | .wr _ => false
  | .gf8Add _ _ | .gf8Mul _ _ => false
  | .gf8Xtime _ | .gf8Inv _ | .gf8Affine _ | .gf8Sbox _ => false
  | .gf128Add | .gf128Mul => false
  | .subBytes | .shiftRows | .mixColumns | .addRk _ | .keyExpand | .encrypt => false

/-! ### Invariants -/

/-- Whenever KVALID = 1, the round-key file is the expansion of KEY (R33). -/
def KeysValid (s : State) : Prop := s.status.kvalid = true → s.rk = keyExpansion s.key

/-- LERR and SERR and ECODE agree: a failed last command set SERR, SERR is set exactly while ECODE holds a
code, and the code is one of the ten (R31, R270, R272). -/
def ErrorRecordConsistent (s : State) : Prop :=
  (s.status.lerr = true → s.status.serr = true) ∧
  (s.status.serr = true ↔ s.status.ecode ≠ 0#8) ∧
  s.status.ecode.toNat ≤ 10

/-- CCNT stays in its range, and MODE tells whether the open GCM chain has taken an encryption block
(R32, R39). -/
def CipherCountInRange (s : State) : Prop :=
  s.ccnt.toNat ≤ 4294967294 ∧
  (s.status.mode = .gcmAad → s.ccnt.toNat = 0) ∧
  (s.status.mode = .gcmEnc → 1 ≤ s.ccnt.toNat)

/-! ### Chain records -/

/-- An open CTR chain that started with iv `iv0` under the key `key0` and has produced the ciphertext blocks
`cs`, oldest first (R203). -/
def CtrRecord (iv0 key0 : Block) (cs : List Block) (s : State) : Prop :=
  s.status.mode = .ctr ∧ s.liv = iv0 ∧ s.kc = Config.keyCommit key0 ∧
  s.ctr.toNat + 1 = cs.length ∧ s.cc = cs.foldl Config.cipherCommit Config.ccInit

/-- `Y_j` of R227: the GHASH fold of the blocks `xs` under the subkey `h`, from 0^128. -/
def ghash (h : Block) (xs : List Block) : Block := xs.foldl (fun y x => gf128Mul (y ^^^ x) h) 0#128

/-- An open GCM chain that started with J0 `iv0` under the key `key0` with subkey `h` and has folded the
associated-data blocks `ad` and the ciphertext blocks `cs` (R227). -/
def GcmRecord (iv0 key0 h : Block) (ad cs : List Block) (s : State) : Prop :=
  ((s.status.mode = .gcmAad ∧ cs = []) ∨ (s.status.mode = .gcmEnc ∧ cs ≠ [])) ∧
  s.liv = iv0 ∧ s.kc = Config.keyCommit key0 ∧ s.h = h ∧
  s.acnt.toNat = ad.length ∧ s.ccnt.toNat = cs.length ∧ s.tag = ghash h (ad ++ cs)

/-! ### The observation of a run (R325) -/

/-- What the host sees after a transaction: `dout` and `status` (R62). -/
def observe (s : State) : Block × Word := (doutSignal s, statusSignal s)

/-- The observations after each of the next `n` steps; the list ends where a step stops. -/
def observations : Nat → State → List (Block × Word)
  | 0, _ => []
  | n + 1, s =>
    match step s with
    | .next t => observe t :: observations n t
    | .fault _ => []
    | .refused _ => []

/-! ### Polynomials over GF(2), as numbers whose bit `i` is the coefficient of x^i -/

/-- The product of `a` and the polynomial of the low `n` bits of `b`, unreduced. -/
def polyMul (a : Nat) : (n b : Nat) → Nat
  | 0, _ => 0
  | n + 1, b => (polyMul a n b) ^^^ (if b.testBit n then a <<< n else 0)

/-- The remainder of a polynomial of degree below `deg + n` modulo `p`, a polynomial of degree `deg`. -/
def polyMod (p deg : Nat) : (n a : Nat) → Nat
  | 0, a => a
  | n + 1, a => polyMod p deg n (if a.testBit (deg + n) then a ^^^ (p <<< n) else a)

/-- A block as a polynomial of GF(2^128): the coefficient of x^i is bit `127 - i` of `int128(B)` (R105). -/
def blockPoly (b : Block) : Nat := b.reverse.toNat

end Sys2Proof.Safety
end

