-- ==== Sys2Proof/Certificates/Slice0/Obligations.lean ====
section
/-! DEFINITION. The statements for the provers, each from the rules its docstring names. -/

open Sys2Proof Sys2Proof.Machine Sys2Proof.Safety

/-! ### Decoding and encoding -/

/-- Words written out from R81 to R83 and R89, one or two of each family, decode to their commands, and
reserved words are refused. -/
def Obligations.SpecWordsDecode : Prop :=
  decode 0x00000000#32 = .ok .nop ∧
  decode 0x00000103#32 = .ok (.wr 0x01#8) ∧
  decode 0x00835712#32 = .ok (.gf8Mul 0x57#8 0x83#8) ∧
  decode 0x00005315#32 = .ok (.gf8Sbox 0x53#8) ∧
  decode 0x00000019#32 = .ok .gf128Mul ∧
  decode 0x00000021#32 = .ok .shiftRows ∧
  decode 0x00000A23#32 = .ok (.addRk 10#8) ∧
  decode 0x00000028#32 = .ok .keyExpand ∧
  decode 0x01000031#32 = .ok (.ctrStep true) ∧
  decode 0x00000042#32 = .ok (.gcmEnc false) ∧
  decode 0x00000100#32 = .error (.unusedFieldNonzero 0x00#8) ∧
  decode 0x01000012#32 = .error (.unusedFieldNonzero 0x12#8) ∧
  decode 0x80000010#32 = .error (.unusedFieldNonzero 0x10#8) ∧
  decode 0x00000016#32 = .error (.reservedOpcode 0x16#8)

/-- R81 to R85: the word of every instruction, at every value of its operands, decodes to it. -/
def Obligations.DecodeOfEncodeIsTheInstruction : Prop :=
  ∀ i : Instr, decode (encode i) = .ok i

/-- R83, R85, R87: a legal word is the one word of its instruction. -/
def Obligations.EncodeOfDecodedWordIsTheWord : Prop :=
  ∀ (cmd : Word) (i : Instr), decode cmd = .ok i → encode i = cmd

/-- R81: the word's value, field by field, and RSV is 0 in every legal word. -/
def Obligations.CommandWordValue : Prop :=
  ∀ cmd : Word,
    cmd.toNat = (opField cmd).toNat + (aField cmd).toNat * 2 ^ 8 + (bField cmd).toNat * 2 ^ 16 +
      (vField cmd).toNat * 2 ^ 24 + (rsvField cmd).toNat * 2 ^ 25 ∧
    ∀ i : Instr, decode cmd = .ok i → rsvField cmd = 0#7

/-- R85: a word is legal iff it matches its opcode's mask in the opcode map, whatever the state, and the
step on an illegal word is Error(ILLEGAL_CMD) and nothing else. -/
def Obligations.IllegalWordsRaiseIllegalCmd : Prop :=
  (∀ cmd : Word, (∃ i, decode cmd = .ok i) ↔ legalCommand cmd = true) ∧
  ∀ (s : State) (t : Transaction) (rest : List HostEvent),
    s.host = .transact t :: rest → legalCommand t.cmd = false →
    step s = .next (failedWith 1 { s with din := t.din, host := rest })

/-- R22, R155, R252, R253: the causes of BAD_OPERAND. An instruction whose operand is outside the range its
command takes (a number RD cannot read, one WR cannot write, a round index above 10) fails with it, a WR CTRIN
with a nonzero byte in 0..11 fails with it, and no other command does. -/
def Obligations.BadOperandCauses : Prop :=
  ∀ (i : Instr) (s : State),
    (i.wellFormed = false → exec i s = .next (failedWith 2 s)) ∧
    (s.din.extractLsb' 32 96 ≠ 0#96 → exec (.wr 0x04#8) s = .next (failedWith 2 s)) ∧
    (∀ t, exec i s = .next t → t.status.lerr = true → t.status.ecode = 2#8 →
      i.wellFormed = false ∨ (i = .wr 0x04#8 ∧ s.din.extractLsb' 32 96 ≠ 0#96))

/-! ### The step -/

/-- R61, R80: a transaction whose word decodes to `i` is `exec i`, with the transaction taken off the host's
side and its `din` on the bus; nothing else happens around it. -/
def Obligations.StepRunsTheDecodedCommand : Prop :=
  ∀ (s : State) (t : Transaction) (rest : List HostEvent) (i : Instr),
    s.host = .transact t :: rest → decode t.cmd = .ok i →
    step s = exec i { s with din := t.din, host := rest }

/-- R285, R301: with no transaction the core idles and keeps all state. -/
def Obligations.IdleStepKeepsState : Prop :=
  ∀ s : State, s.host = [] → step s = .next s

/-- R300, R302: a reset gives the reset state from every state, and a command that was in flight or
presented meanwhile has no effect. (That the `din` bus reads 0 then is the model's choice: log entry 3.) -/
def Obligations.ResetEventGivesResetState : Prop :=
  ∀ (s : State) (aborted : Option Transaction) (rest : List HostEvent),
    s.host = .reset aborted :: rest → step s = .next { State.reset with host := rest }

/-- R50: the value of every register after reset. -/
def Obligations.ResetStateValues : Prop :=
  State.reset.key = 0#128 ∧ State.reset.iv = 0#128 ∧ State.reset.st = 0#128 ∧ State.reset.exp = 0#128 ∧
  State.reset.dout = 0#128 ∧ State.reset.liv = 0#128 ∧ State.reset.kc = 0#128 ∧ State.reset.cc = 0#128 ∧
  State.reset.h = 0#128 ∧ State.reset.tag = 0#128 ∧
  (∀ i : Fin 11, State.reset.rk[i] = 0#128) ∧
  State.reset.ctrin = 0#32 ∧ State.reset.ctr = 0#32 ∧ State.reset.acnt = 0#32 ∧ State.reset.ccnt = 0#32 ∧
  statusWord State.reset.status = 0x00000000#32 ∧
  State.reset.status.mode = .idle ∧ State.reset.status.kvalid = false ∧ State.reset.status.lerr = false ∧
  State.reset.status.serr = false ∧ State.reset.status.ecode = 0#8

/-- R320, R325, R62: every step answers a next state, so a run of n transactions has n observations; the
observation after a step is the DOUT register and the STATUS word of the state the step left, which is what
the `dout` and `status` signals show between transactions. -/
def Obligations.CoreNeverHangs : Prop :=
  (∀ s : State, ∃ t, step s = .next t) ∧
  (∀ s : State, doutSignal s = s.dout ∧ statusSignal s = statusWord s.status) ∧
  (∀ (s t : State) (n : Nat), step s = .next t →
    observations (n + 1) s = (t.dout, statusWord t.status) :: observations n t) ∧
  ∀ (n : Nat) (s : State), (observations n s).length = n

/-! ### Host commands -/

/-- R250. -/
def Obligations.NopResult : Prop :=
  HasEncoding 0xFFFFFFFF#32 0x00000000#32 (fun _ => .nop) ∧
  ∀ s : State, exec .nop s = .next (completedWith s)

/-- R251. -/
def Obligations.ClrerrResult : Prop :=
  HasEncoding 0xFFFFFFFF#32 0x00000001#32 (fun _ => .clrerr) ∧
  ∀ s : State,
    exec .clrerr s = .next { s with status := { s.status with serr := false, ecode := 0#8, lerr := false } }

/-- R252: every readable register by its number, as it stood before the command; the other numbers fail. -/
def Obligations.RdResult : Prop :=
  HasEncoding 0xFFFF00FF#32 0x00000002#32 (fun cmd => .rd (cmd.extractLsb' 8 8)) ∧
  ∀ s : State,
    (exec (.rd 0x00#8) s = .next (completedWith { s with dout := s.key })) ∧
    (exec (.rd 0x01#8) s = .next (completedWith { s with dout := s.iv })) ∧
    (exec (.rd 0x02#8) s = .next (completedWith { s with dout := s.st })) ∧
    (exec (.rd 0x03#8) s = .next (completedWith { s with dout := s.exp })) ∧
    (exec (.rd 0x04#8) s = .next (completedWith { s with dout := 0#96 ++ s.ctrin })) ∧
    (exec (.rd 0x05#8) s = .next (completedWith s)) ∧
    (exec (.rd 0x06#8) s = .next (completedWith { s with dout := 0#96 ++ statusWord s.status })) ∧
    (exec (.rd 0x07#8) s = .next (completedWith { s with dout := s.liv })) ∧
    (exec (.rd 0x08#8) s = .next (completedWith { s with dout := s.kc })) ∧
    (exec (.rd 0x09#8) s = .next (completedWith { s with dout := s.cc })) ∧
    (exec (.rd 0x0A#8) s = .next (completedWith { s with dout := 0#96 ++ s.ctr })) ∧
    (exec (.rd 0x0B#8) s = .next (completedWith { s with dout := s.h })) ∧
    (exec (.rd 0x0C#8) s = .next (completedWith { s with dout := s.tag })) ∧
    (exec (.rd 0x0D#8) s = .next (completedWith { s with dout := 0#96 ++ s.acnt })) ∧
    (exec (.rd 0x0E#8) s = .next (completedWith { s with dout := 0#96 ++ s.ccnt })) ∧
    (∀ i : Fin 11,
      exec (.rd (BitVec.ofNat 8 (0x10 + i.val))) s = .next (completedWith { s with dout := s.rk[i] })) ∧
    (∀ n : Byte, n = 0x0F#8 ∨ 0x1B ≤ n.toNat → exec (.rd n) s = .next (failedWith 2 s))

/-- R253: each host-writable register; WR KEY clears KVALID; WR CTRIN needs bytes 0..11 zero; every other
number fails. -/
def Obligations.WrResult : Prop :=
  HasEncoding 0xFFFF00FF#32 0x00000003#32 (fun cmd => .wr (cmd.extractLsb' 8 8)) ∧
  ∀ s : State,
    (exec (.wr 0x00#8) s =
      .next (completedWith { s with key := s.din, status := { s.status with kvalid := false } })) ∧
    (exec (.wr 0x01#8) s = .next (completedWith { s with iv := s.din })) ∧
    (exec (.wr 0x02#8) s = .next (completedWith { s with st := s.din })) ∧
    (exec (.wr 0x03#8) s = .next (completedWith { s with exp := s.din })) ∧
    (s.din.extractLsb' 32 96 = 0#96 →
      exec (.wr 0x04#8) s = .next (completedWith { s with ctrin := s.din.extractLsb' 0 32 })) ∧
    (s.din.extractLsb' 32 96 ≠ 0#96 → exec (.wr 0x04#8) s = .next (failedWith 2 s)) ∧
    (∀ n : Byte, 0x04 < n.toNat → exec (.wr n) s = .next (failedWith 2 s))

/-! ### Field arithmetic -/

/-- R110 to R113, R150, R151: the byte result in byte 0 of DOUT, the other bytes zero, and LERR clear. -/
def Obligations.Gf8CommandResults : Prop :=
  HasEncoding 0xFF0000FF#32 0x00000010#32 (fun cmd => .gf8Add (cmd.extractLsb' 8 8) (cmd.extractLsb' 16 8)) ∧
  HasEncoding 0xFFFF00FF#32 0x00000011#32 (fun cmd => .gf8Xtime (cmd.extractLsb' 8 8)) ∧
  HasEncoding 0xFF0000FF#32 0x00000012#32 (fun cmd => .gf8Mul (cmd.extractLsb' 8 8) (cmd.extractLsb' 16 8)) ∧
  HasEncoding 0xFFFF00FF#32 0x00000013#32 (fun cmd => .gf8Inv (cmd.extractLsb' 8 8)) ∧
  HasEncoding 0xFFFF00FF#32 0x00000014#32 (fun cmd => .gf8Affine (cmd.extractLsb' 8 8)) ∧
  HasEncoding 0xFFFF00FF#32 0x00000015#32 (fun cmd => .gf8Sbox (cmd.extractLsb' 8 8)) ∧
  ∀ (a b : Byte) (s : State),
    exec (.gf8Add a b) s = .next (completedWith { s with dout := (a ^^^ b) ++ 0#120 }) ∧
    exec (.gf8Xtime a) s = .next (completedWith { s with dout := xtime a ++ 0#120 }) ∧
    exec (.gf8Mul a b) s = .next (completedWith { s with dout := mult a b ++ 0#120 }) ∧
    exec (.gf8Inv a) s = .next (completedWith { s with dout := inverse a ++ 0#120 }) ∧
    exec (.gf8Affine a) s = .next (completedWith { s with dout := affine a ++ 0#120 }) ∧
    exec (.gf8Sbox a) s = .next (completedWith { s with dout := sbox a ++ 0#120 })

/-- R114, R115: ST and din give DOUT; ST stays. -/
def Obligations.Gf128CommandResults : Prop :=
  HasEncoding 0xFFFFFFFF#32 0x00000018#32 (fun _ => .gf128Add) ∧
  HasEncoding 0xFFFFFFFF#32 0x00000019#32 (fun _ => .gf128Mul) ∧
  ∀ s : State,
    exec .gf128Add s = .next (completedWith { s with dout := s.st ^^^ s.din }) ∧
    exec .gf128Mul s = .next (completedWith { s with dout := Machine.gf128Mul s.st s.din })

/-- R101, R102: xtime is the shift with reduction, and mult is the product of polynomials modulo
x^8 + x^4 + x^3 + x + 1. -/
def Obligations.MultIsPolynomialProduct : Prop :=
  (∀ a : Byte, (xtime a).toNat = ((2 * a.toNat) ^^^ (if 0x80 ≤ a.toNat then 0x1B else 0)) % 256) ∧
  ∀ a b : Byte, (mult a b).toNat = polyMod 0x11B 8 7 (polyMul a.toNat 8 b.toNat)

/-- R103: the inverse is the unique one, 0 maps to 0, and it is the product of 254 copies of `a`
(the power is the spec's own inference from the group order). -/
def Obligations.InverseIsTheUniqueInverse : Prop :=
  inverse 0#8 = 0#8 ∧
  (∀ a b : Byte, a ≠ 0#8 → (mult a b = 1#8 ↔ b = inverse a)) ∧
  ∀ a : Byte, a ≠ 0#8 → inverse a = (List.replicate 254 a).foldl mult 1#8

/-- R104: the laws of the field GF(2^8). -/
def Obligations.Gf8FieldLaws : Prop :=
  (∀ a : Byte, mult a 0#8 = 0#8) ∧
  (∀ a : Byte, mult a 1#8 = a) ∧
  (∀ a b : Byte, mult a b = mult b a) ∧
  (∀ a b c : Byte, mult (mult a b) c = mult a (mult b c)) ∧
  (∀ a b c : Byte, mult a (gfAdd b c) = gfAdd (mult a b) (mult a c)) ∧
  (∀ a : Byte, a ≠ 0#8 → mult a (inverse a) = 1#8)

/-- R105 with R106: gf128_mul is the product of polynomials modulo x^128 + x^7 + x^2 + x + 1, the
coefficient of x^i being bit 127 - i of int128(B): the spec marks that assignment as its own inference. -/
def Obligations.Gf128MulIsPolynomialProduct : Prop :=
  ∀ x y : Block,
    blockPoly (Machine.gf128Mul x y) =
      polyMod (2 ^ 128 + 0x87) 128 127 (polyMul (blockPoly x) 128 (blockPoly y))

/-- Addition is XOR; the product is commutative, so it does not depend on which operand is iterated; zero and
the identity. The spec infers these (R107) from R105 and R106. -/
def Obligations.Gf128Laws : Prop :=
  (∀ x y : Block, Machine.gf128Add x y = x ^^^ y) ∧
  (∀ x y : Block, Machine.gf128Mul x y = Machine.gf128Mul y x) ∧
  (∀ x : Block, Machine.gf128Mul x 0#128 = 0#128) ∧
  (∀ x : Block, Machine.gf128Mul x 0x80000000000000000000000000000000#128 = x)

/-! ### S-box and round transformations -/

/-- R140: bit i of affine(a) is a[i] ⊕ a[i+4] ⊕ a[i+5] ⊕ a[i+6] ⊕ a[i+7] ⊕ 0x63[i], indices modulo 8. -/
def Obligations.AffineBitFormula : Prop :=
  ∀ (a : Byte) (i : Nat), i < 8 →
    (affine a).getLsbD i =
      (a.getLsbD i ^^ a.getLsbD ((i + 4) % 8) ^^ a.getLsbD ((i + 5) % 8) ^^ a.getLsbD ((i + 6) % 8) ^^
        a.getLsbD ((i + 7) % 8) ^^ (0x63#8).getLsbD i)

/-- R141: the S-box's formula, its 256 values as the rule's table gives them (16 a row, row after row), and
that it is a bijection. The spec computed the table from the formula and marks it as its inference. -/
def Obligations.SboxTable : Prop :=
  (∀ a : Byte, sbox a = affine (inverse a)) ∧
  (List.range 256).map (fun n => (sbox (BitVec.ofNat 8 n)).toNat) =
    [ 0x63, 0x7c, 0x77, 0x7b, 0xf2, 0x6b, 0x6f, 0xc5, 0x30, 0x01, 0x67, 0x2b, 0xfe, 0xd7, 0xab, 0x76,
      0xca, 0x82, 0xc9, 0x7d, 0xfa, 0x59, 0x47, 0xf0, 0xad, 0xd4, 0xa2, 0xaf, 0x9c, 0xa4, 0x72, 0xc0,
      0xb7, 0xfd, 0x93, 0x26, 0x36, 0x3f, 0xf7, 0xcc, 0x34, 0xa5, 0xe5, 0xf1, 0x71, 0xd8, 0x31, 0x15,
      0x04, 0xc7, 0x23, 0xc3, 0x18, 0x96, 0x05, 0x9a, 0x07, 0x12, 0x80, 0xe2, 0xeb, 0x27, 0xb2, 0x75,
      0x09, 0x83, 0x2c, 0x1a, 0x1b, 0x6e, 0x5a, 0xa0, 0x52, 0x3b, 0xd6, 0xb3, 0x29, 0xe3, 0x2f, 0x84,
      0x53, 0xd1, 0x00, 0xed, 0x20, 0xfc, 0xb1, 0x5b, 0x6a, 0xcb, 0xbe, 0x39, 0x4a, 0x4c, 0x58, 0xcf,
      0xd0, 0xef, 0xaa, 0xfb, 0x43, 0x4d, 0x33, 0x85, 0x45, 0xf9, 0x02, 0x7f, 0x50, 0x3c, 0x9f, 0xa8,
      0x51, 0xa3, 0x40, 0x8f, 0x92, 0x9d, 0x38, 0xf5, 0xbc, 0xb6, 0xda, 0x21, 0x10, 0xff, 0xf3, 0xd2,
      0xcd, 0x0c, 0x13, 0xec, 0x5f, 0x97, 0x44, 0x17, 0xc4, 0xa7, 0x7e, 0x3d, 0x64, 0x5d, 0x19, 0x73,
      0x60, 0x81, 0x4f, 0xdc, 0x22, 0x2a, 0x90, 0x88, 0x46, 0xee, 0xb8, 0x14, 0xde, 0x5e, 0x0b, 0xdb,
      0xe0, 0x32, 0x3a, 0x0a, 0x49, 0x06, 0x24, 0x5c, 0xc2, 0xd3, 0xac, 0x62, 0x91, 0x95, 0xe4, 0x79,
      0xe7, 0xc8, 0x37, 0x6d, 0x8d, 0xd5, 0x4e, 0xa9, 0x6c, 0x56, 0xf4, 0xea, 0x65, 0x7a, 0xae, 0x08,
      0xba, 0x78, 0x25, 0x2e, 0x1c, 0xa6, 0xb4, 0xc6, 0xe8, 0xdd, 0x74, 0x1f, 0x4b, 0xbd, 0x8b, 0x8a,
      0x70, 0x3e, 0xb5, 0x66, 0x48, 0x03, 0xf6, 0x0e, 0x61, 0x35, 0x57, 0xb9, 0x86, 0xc1, 0x1d, 0x9e,
      0xe1, 0xf8, 0x98, 0x11, 0x69, 0xd9, 0x8e, 0x94, 0x9b, 0x1e, 0x87, 0xe9, 0xce, 0x55, 0x28, 0xdf,
      0x8c, 0xa1, 0x89, 0x0d, 0xbf, 0xe6, 0x42, 0x68, 0x41, 0x99, 0x2d, 0x0f, 0xb0, 0x54, 0xbb, 0x16 ] ∧
  Function.Bijective sbox

/-- R142, R143, R145: byte by byte and element by element. The index form of ShiftRows is the spec's own
inference from the rotation of row r. -/
def Obligations.RoundTransformsByElement : Prop :=
  ∀ s k : Block,
    (∀ n : Nat, n < 16 → byteAt (Machine.subBytes s) n = sbox (byteAt s n)) ∧
    (∀ r c : Nat, r < 4 → c < 4 → elem (Machine.shiftRows s) r c = elem s r ((c + r) % 4)) ∧
    (∀ n : Nat, n < 16 → byteAt (addRoundKey s k) n = byteAt s n ^^^ byteAt k n)

/-- R144: each byte is the sum of the products of its row of the matrix and the column; the four sums of the
pseudocode; and the equivalent formulation with doubled bytes, whose equality to the first the spec infers. -/
def Obligations.MixColumnsByMatrix : Prop :=
  (∀ (s : Block) (r c : Nat), r < 4 → c < 4 →
    elem (Machine.mixColumns s) r c =
      mult (elem s 0 c) ((Config.mixMatrix.getD r []).getD 0 0) ^^^
      mult (elem s 1 c) ((Config.mixMatrix.getD r []).getD 1 0) ^^^
      mult (elem s 2 c) ((Config.mixMatrix.getD r []).getD 2 0) ^^^
      mult (elem s 3 c) ((Config.mixMatrix.getD r []).getD 3 0) ∧
    elem (Machine.mixColumns s) r c =
      xtime (elem s r c) ^^^ xtime (elem s ((r + 1) % 4) c) ^^^ elem s ((r + 1) % 4) c ^^^
      elem s ((r + 2) % 4) c ^^^ elem s ((r + 3) % 4) c) ∧
  ∀ (s : Block) (c : Nat), c < 4 →
    elem (Machine.mixColumns s) 0 c =
      mult (elem s 0 c) 2#8 ^^^ mult (elem s 1 c) 3#8 ^^^ elem s 2 c ^^^ elem s 3 c ∧
    elem (Machine.mixColumns s) 1 c =
      elem s 0 c ^^^ mult (elem s 1 c) 2#8 ^^^ mult (elem s 2 c) 3#8 ^^^ elem s 3 c ∧
    elem (Machine.mixColumns s) 2 c =
      elem s 0 c ^^^ elem s 1 c ^^^ mult (elem s 2 c) 2#8 ^^^ mult (elem s 3 c) 3#8 ∧
    elem (Machine.mixColumns s) 3 c =
      mult (elem s 0 c) 3#8 ^^^ elem s 1 c ^^^ elem s 2 c ^^^ mult (elem s 3 c) 2#8

/-- R152 to R154: ST is rewritten and copied to DOUT; no key is needed. -/
def Obligations.RoundTransformResults : Prop :=
  HasEncoding 0xFFFFFFFF#32 0x00000020#32 (fun _ => .subBytes) ∧
  HasEncoding 0xFFFFFFFF#32 0x00000021#32 (fun _ => .shiftRows) ∧
  HasEncoding 0xFFFFFFFF#32 0x00000022#32 (fun _ => .mixColumns) ∧
  ∀ s : State,
    exec .subBytes s =
      .next (completedWith { s with st := Machine.subBytes s.st, dout := Machine.subBytes s.st }) ∧
    exec .shiftRows s =
      .next (completedWith { s with st := Machine.shiftRows s.st, dout := Machine.shiftRows s.st }) ∧
    exec .mixColumns s =
      .next (completedWith { s with st := Machine.mixColumns s.st, dout := Machine.mixColumns s.st })

/-- R155: index 0..10 with a valid key; BAD_OPERAND before NO_KEY. -/
def Obligations.AddRkResult : Prop :=
  HasEncoding 0xFFFF00FF#32 0x00000023#32 (fun cmd => .addRk (cmd.extractLsb' 8 8)) ∧
  ∀ s : State,
    (∀ i : Fin 11, s.status.kvalid = true →
      exec (.addRk (BitVec.ofNat 8 i.val)) s =
        .next (completedWith { s with st := s.st ^^^ s.rk[i], dout := s.st ^^^ s.rk[i] })) ∧
    (∀ n : Byte, 10 < n.toNat → exec (.addRk n) s = .next (failedWith 2 s)) ∧
    (∀ n : Byte, n.toNat ≤ 10 → s.status.kvalid = false → exec (.addRk n) s = .next (failedWith 3 s))

/-! ### Key schedule and block cipher -/

/-- R180 to R183 (that the listed Rcon bytes agree with repeated xtime is the spec's inference): RotWord,
SubWord and Rcon by their bytes; `w[0..3]` are the key's words, every later word follows the loop of R183,
and round key i is the words 4i..4i+3. -/
def Obligations.KeyExpansionRecurrence : Prop :=
  (∀ a0 a1 a2 a3 : Byte,
    rotWord (a0 ++ a1 ++ a2 ++ a3 : Word) = (a1 ++ a2 ++ a3 ++ a0 : Word) ∧
    subWord (a0 ++ a1 ++ a2 ++ a3 : Word) = (sbox a0 ++ sbox a1 ++ sbox a2 ++ sbox a3 : Word)) ∧
  (∀ j : Nat, j < 10 →
    rcon j = ((List.replicate j 0).foldl (fun x _ => xtime x) 0x01#8 ++ 0#24 : Word) ∧
    (rcon j).toNat =
      [0x01, 0x02, 0x04, 0x08, 0x10, 0x20, 0x40, 0x80, 0x1B, 0x36].getD j 0 * 2 ^ 24) ∧
  ∀ k : Block,
    (∀ i : Nat, i < 4 → (keyWords k).getD i 0 = col k i) ∧
    (∀ i : Nat, 4 ≤ i → i < 44 →
      (keyWords k).getD i 0 =
        (keyWords k).getD (i - 4) 0 ^^^
          (if i % 4 = 0 then subWord (rotWord ((keyWords k).getD (i - 1) 0)) ^^^ rcon (i / 4 - 1)
            else (keyWords k).getD (i - 1) 0)) ∧
    (∀ (i : Fin 11) (j : Nat), j < 4 → col (keyExpansion k)[i] j = (keyWords k).getD (4 * i.val + j) 0)

/-- R184: the round states of the cipher, from the plaintext to the ciphertext. -/
def Obligations.CipherRounds : Prop :=
  ∀ (p : Block) (rk : Vector Block 11), ∃ r : Nat → Block,
    r 0 = addRoundKey p rk[0] ∧
    (∀ i : Fin 11, 1 ≤ i.val → i.val ≤ 9 →
      r i.val =
        addRoundKey (Machine.mixColumns (Machine.shiftRows (Machine.subBytes (r (i.val - 1))))) rk[i]) ∧
    cipher p rk = addRoundKey (Machine.shiftRows (Machine.subBytes (r 9))) rk[10]

/-- R185: Cipher is a bijection on blocks for every round-key file, and it gives the source's FIPS-197
vector. -/
def Obligations.CipherIsBijective : Prop :=
  (∀ rk : Vector Block 11, Function.Bijective (fun p => cipher p rk)) ∧
  cipher 0x3243f6a8885a308d313198a2e0370734#128 (keyExpansion 0x2b7e151628aed2a6abf7158809cf4f3c#128) =
    0x3925841d02dc09fbdc118597196a0b32#128

/-- R186. -/
def Obligations.KeyExpandResult : Prop :=
  HasEncoding 0xFFFFFFFF#32 0x00000028#32 (fun _ => .keyExpand) ∧
  ∀ s : State,
    exec .keyExpand s =
      .next (completedWith { s with rk := keyExpansion s.key, status := { s.status with kvalid := true } })

/-- R187. -/
def Obligations.EncryptResult : Prop :=
  HasEncoding 0xFFFFFFFF#32 0x00000029#32 (fun _ => .encrypt) ∧
  ∀ s : State,
    (s.status.kvalid = true → exec .encrypt s = .next (completedWith { s with dout := cipher s.din s.rk })) ∧
    (s.status.kvalid = false → exec .encrypt s = .next (failedWith 3 s))

/-- R200, R220: `inc` adds to bytes 12..15 modulo 2^32 and leaves bytes 0..11; the length block is two
64-bit bit lengths. -/
def Obligations.CounterAndLengthBlocks : Prop :=
  (∀ (b : Block) (n : Nat), n < 2 ^ 32 →
    (∀ k : Nat, k < 12 → byteAt (inc b n) k = byteAt b k) ∧
    (low32 (inc b n)).toNat = ((low32 b).toNat + n) % 2 ^ 32) ∧
  (∀ b : Block, inc b 0 = b) ∧
  ∀ a c : Nat, a < 2 ^ 32 → c < 2 ^ 32 →
    top64 (lenblock a c) = a * 128 ∧ bottom64 (lenblock a c) = c * 128

/-! ### CTR chain -/

/-- R201: CTR_BASE is accepted in every MODE; its two errors. -/
def Obligations.CtrBaseResult : Prop :=
  HasEncoding 0xFEFFFFFF#32 0x00000030#32 (fun cmd => .ctrBase (cmd.getLsbD 24)) ∧
  ∀ (v : Bool) (s : State) (c : Block), c = s.din ^^^ cipher (inc s.iv 0) s.rk →
    (s.status.kvalid = true → (v = true → c = s.exp) →
      exec (.ctrBase v) s =
        .next (completedWith
          { s with
            liv := s.iv
            kc := Config.keyCommit s.key
            ctr := 0#32
            cc := Config.cipherCommit Config.ccInit c
            status := { s.status with mode := .ctr }
            dout := c })) ∧
    (s.status.kvalid = false → exec (.ctrBase v) s = .next (failedWith 3 s)) ∧
    (s.status.kvalid = true → v = true → c ≠ s.exp → exec (.ctrBase v) s = .next (failedWith 10 s))

/-- R202: CTR_STEP where every check passes, and each of its errors where the checks before it pass. -/
def Obligations.CtrStepResult : Prop :=
  HasEncoding 0xFEFFFFFF#32 0x00000031#32 (fun cmd => .ctrStep (cmd.getLsbD 24)) ∧
  ∀ (v : Bool) (s : State) (c : Block), c = s.din ^^^ cipher (inc s.liv s.ctrin.toNat) s.rk →
    (s.status.kvalid = true → s.status.mode = .ctr → s.iv = s.liv → Config.keyCommit s.key = s.kc →
      s.ctrin.toNat = s.ctr.toNat + 1 → (v = true → c = s.exp) →
      exec (.ctrStep v) s =
        .next (completedWith
          { s with ctr := s.ctrin, cc := Config.cipherCommit s.cc c, dout := c })) ∧
    (s.status.kvalid = false → exec (.ctrStep v) s = .next (failedWith 3 s)) ∧
    (s.status.kvalid = true → s.status.mode ≠ .ctr → exec (.ctrStep v) s = .next (failedWith 4 s)) ∧
    (s.status.kvalid = true → s.status.mode = .ctr → s.iv ≠ s.liv →
      exec (.ctrStep v) s = .next (failedWith 6 s)) ∧
    (s.status.kvalid = true → s.status.mode = .ctr → s.iv = s.liv → Config.keyCommit s.key ≠ s.kc →
      exec (.ctrStep v) s = .next (failedWith 7 s)) ∧
    (s.status.kvalid = true → s.status.mode = .ctr → s.iv = s.liv → Config.keyCommit s.key = s.kc →
      s.ctrin.toNat ≠ s.ctr.toNat + 1 → exec (.ctrStep v) s = .next (failedWith 9 s)) ∧
    (s.status.kvalid = true → s.status.mode = .ctr → s.iv = s.liv → Config.keyCommit s.key = s.kc →
      s.ctrin.toNat = s.ctr.toNat + 1 → v = true → c ≠ s.exp →
      exec (.ctrStep v) s = .next (failedWith 10 s))

/-- The invariant the spec infers in R203: every step keeps the record of an open CTR chain, or extends it
by the block it encrypts, or starts the record of a new chain, as long as MODE stays CTR. -/
def Obligations.CtrChainRecordKept : Prop :=
  ∀ (iv0 key0 : Block) (cs : List Block) (s t : State),
    CtrRecord iv0 key0 cs s → step s = .next t → t.status.mode = .ctr →
    CtrRecord iv0 key0 cs t ∨
    (CtrRecord iv0 key0 (cs ++ [t.dout]) t ∧ t.dout = t.din ^^^ cipher (inc iv0 cs.length) t.rk) ∨
    (CtrRecord t.iv t.key [t.dout] t ∧ t.dout = t.din ^^^ cipher (inc t.iv 0) t.rk)

/-- What the spec infers in R204: in a chain opened under `key0`, a CTR_STEP after WR KEY and no KEY_EXPAND
fails with NO_KEY and leaves the chain open; after KEY_EXPAND it fails with KEY_MISMATCH unless the
commitments agree. -/
def Obligations.CtrKeyChangeDetected : Prop :=
  ∀ (v : Bool) (key0 : Block) (s : State),
    s.status.mode = .ctr → s.kc = Config.keyCommit key0 → s.iv = s.liv →
    (s.status.kvalid = false →
      exec (.ctrStep v) s = .next (failedWith 3 s) ∧ (failedWith 3 s).status.mode = .ctr) ∧
    (s.status.kvalid = true →
      Config.keyCommit s.key = Config.keyCommit key0 ∨ exec (.ctrStep v) s = .next (failedWith 7 s))

/-! ### GCM chain -/

/-- R223: GCM_SETUP is accepted in every MODE. -/
def Obligations.GcmSetupResult : Prop :=
  HasEncoding 0xFFFFFFFF#32 0x00000040#32 (fun _ => .gcmSetup) ∧
  ∀ s : State,
    (s.status.kvalid = true →
      exec .gcmSetup s =
        .next (completedWith
          { s with
            h := cipher 0#128 s.rk
            liv := s.iv
            kc := Config.keyCommit s.key
            tag := 0#128
            acnt := 0#32
            ccnt := 0#32
            status := { s.status with mode := .gcmAad }
            dout := cipher 0#128 s.rk })) ∧
    (s.status.kvalid = false → exec .gcmSetup s = .next (failedWith 3 s))

/-- R224 with gcm_check of R221: GCM_AAD where every check passes, and each error where the checks before it
pass. -/
def Obligations.GcmAadResult : Prop :=
  HasEncoding 0xFFFFFFFF#32 0x00000041#32 (fun _ => .gcmAad) ∧
  ∀ s : State,
    (s.status.kvalid = true → s.status.mode = .gcmAad → s.acnt.toNat ≠ 4294967295 → s.iv = s.liv →
      Config.keyCommit s.key = s.kc → cipher 0#128 s.rk = s.h →
      exec .gcmAad s =
        .next (completedWith
          { s with
            tag := Machine.gf128Mul (s.tag ^^^ s.din) s.h
            acnt := s.acnt + 1
            dout := Machine.gf128Mul (s.tag ^^^ s.din) s.h })) ∧
    (s.status.kvalid = false → exec .gcmAad s = .next (failedWith 3 s)) ∧
    (s.status.kvalid = true → s.status.mode ≠ .gcmAad → exec .gcmAad s = .next (failedWith 4 s)) ∧
    (s.status.kvalid = true → s.status.mode = .gcmAad → s.acnt.toNat = 4294967295 →
      exec .gcmAad s = .next (failedWith 5 s)) ∧
    (s.status.kvalid = true → s.status.mode = .gcmAad → s.acnt.toNat ≠ 4294967295 → s.iv ≠ s.liv →
      exec .gcmAad s = .next (failedWith 6 s)) ∧
    (s.status.kvalid = true → s.status.mode = .gcmAad → s.acnt.toNat ≠ 4294967295 → s.iv = s.liv →
      Config.keyCommit s.key ≠ s.kc → exec .gcmAad s = .next (failedWith 7 s)) ∧
    (s.status.kvalid = true → s.status.mode = .gcmAad → s.acnt.toNat ≠ 4294967295 → s.iv = s.liv →
      Config.keyCommit s.key = s.kc → cipher 0#128 s.rk ≠ s.h → exec .gcmAad s = .next (failedWith 8 s))

/-- R225 with gcm_check of R221: GCM_ENC where every check passes, and each error where the checks before it
pass. -/
def Obligations.GcmEncResult : Prop :=
  HasEncoding 0xFEFFFFFF#32 0x00000042#32 (fun cmd => .gcmEnc (cmd.getLsbD 24)) ∧
  ∀ (v : Bool) (s : State) (c : Block), c = s.din ^^^ cipher (inc s.liv (s.ccnt.toNat + 1)) s.rk →
    (s.status.kvalid = true → (s.status.mode = .gcmAad ∨ s.status.mode = .gcmEnc) →
      s.ccnt.toNat < 4294967294 → s.iv = s.liv → Config.keyCommit s.key = s.kc → cipher 0#128 s.rk = s.h →
      (v = true → c = s.exp) →
      exec (.gcmEnc v) s =
        .next (completedWith
          { s with
            tag := Machine.gf128Mul (s.tag ^^^ c) s.h
            ccnt := s.ccnt + 1
            status := { s.status with mode := .gcmEnc }
            dout := c })) ∧
    (s.status.kvalid = false → exec (.gcmEnc v) s = .next (failedWith 3 s)) ∧
    (s.status.kvalid = true → s.status.mode ≠ .gcmAad → s.status.mode ≠ .gcmEnc →
      exec (.gcmEnc v) s = .next (failedWith 4 s)) ∧
    (s.status.kvalid = true → (s.status.mode = .gcmAad ∨ s.status.mode = .gcmEnc) →
      4294967294 ≤ s.ccnt.toNat → exec (.gcmEnc v) s = .next (failedWith 5 s)) ∧
    (s.status.kvalid = true → (s.status.mode = .gcmAad ∨ s.status.mode = .gcmEnc) →
      s.ccnt.toNat < 4294967294 → s.iv ≠ s.liv → exec (.gcmEnc v) s = .next (failedWith 6 s)) ∧
    (s.status.kvalid = true → (s.status.mode = .gcmAad ∨ s.status.mode = .gcmEnc) →
      s.ccnt.toNat < 4294967294 → s.iv = s.liv → Config.keyCommit s.key ≠ s.kc →
      exec (.gcmEnc v) s = .next (failedWith 7 s)) ∧
    (s.status.kvalid = true → (s.status.mode = .gcmAad ∨ s.status.mode = .gcmEnc) →
      s.ccnt.toNat < 4294967294 → s.iv = s.liv → Config.keyCommit s.key = s.kc → cipher 0#128 s.rk ≠ s.h →
      exec (.gcmEnc v) s = .next (failedWith 8 s)) ∧
    (s.status.kvalid = true → (s.status.mode = .gcmAad ∨ s.status.mode = .gcmEnc) →
      s.ccnt.toNat < 4294967294 → s.iv = s.liv → Config.keyCommit s.key = s.kc → cipher 0#128 s.rk = s.h →
      v = true → c ≠ s.exp → exec (.gcmEnc v) s = .next (failedWith 10 s))

/-- R226 with gcm_check of R221: GCM_FINAL where every check passes, and each error where the checks before
it pass. -/
def Obligations.GcmFinalResult : Prop :=
  HasEncoding 0xFEFFFFFF#32 0x00000043#32 (fun cmd => .gcmFinal (cmd.getLsbD 24)) ∧
  ∀ (v : Bool) (s : State) (m : Block),
    m = Machine.gf128Mul (s.tag ^^^ lenblock s.acnt.toNat s.ccnt.toNat) s.h ^^^ cipher s.liv s.rk →
    (s.status.kvalid = true → (s.status.mode = .gcmAad ∨ s.status.mode = .gcmEnc) → s.iv = s.liv →
      Config.keyCommit s.key = s.kc → cipher 0#128 s.rk = s.h → (v = true → m = s.exp) →
      exec (.gcmFinal v) s =
        .next (completedWith
          { s with tag := m, status := { s.status with mode := .gcmDone }, dout := m })) ∧
    (s.status.kvalid = false → exec (.gcmFinal v) s = .next (failedWith 3 s)) ∧
    (s.status.kvalid = true → s.status.mode ≠ .gcmAad → s.status.mode ≠ .gcmEnc →
      exec (.gcmFinal v) s = .next (failedWith 4 s)) ∧
    (s.status.kvalid = true → (s.status.mode = .gcmAad ∨ s.status.mode = .gcmEnc) → s.iv ≠ s.liv →
      exec (.gcmFinal v) s = .next (failedWith 6 s)) ∧
    (s.status.kvalid = true → (s.status.mode = .gcmAad ∨ s.status.mode = .gcmEnc) → s.iv = s.liv →
      Config.keyCommit s.key ≠ s.kc → exec (.gcmFinal v) s = .next (failedWith 7 s)) ∧
    (s.status.kvalid = true → (s.status.mode = .gcmAad ∨ s.status.mode = .gcmEnc) → s.iv = s.liv →
      Config.keyCommit s.key = s.kc → cipher 0#128 s.rk ≠ s.h →
      exec (.gcmFinal v) s = .next (failedWith 8 s)) ∧
    (s.status.kvalid = true → (s.status.mode = .gcmAad ∨ s.status.mode = .gcmEnc) → s.iv = s.liv →
      Config.keyCommit s.key = s.kc → cipher 0#128 s.rk = s.h → v = true → m ≠ s.exp →
      exec (.gcmFinal v) s = .next (failedWith 10 s))

/-- The invariant the spec infers in R227: every step keeps the record of an open GCM chain, or extends it
by one associated-data or one ciphertext block, or starts the record of a new chain, as long as the chain is
open; and finalizing gives the masked GHASH of the record and its length block. -/
def Obligations.GcmChainRecordKept : Prop :=
  (∀ (iv0 key0 h : Block) (ad cs : List Block) (s t : State),
    GcmRecord iv0 key0 h ad cs s → step s = .next t →
    (t.status.mode = .gcmAad ∨ t.status.mode = .gcmEnc) →
    GcmRecord iv0 key0 h ad cs t ∨
    (cs = [] ∧ GcmRecord iv0 key0 h (ad ++ [t.din]) [] t) ∨
    (GcmRecord iv0 key0 h ad (cs ++ [t.dout]) t ∧
      t.dout = t.din ^^^ cipher (inc iv0 (cs.length + 1)) t.rk) ∨
    GcmRecord t.iv t.key (cipher 0#128 t.rk) [] [] t) ∧
  ∀ (v : Bool) (iv0 key0 h : Block) (ad cs : List Block) (s t : State),
    GcmRecord iv0 key0 h ad cs s → exec (.gcmFinal v) s = .next t → t.status.lerr = false →
    t.tag = ghash h (ad ++ cs ++ [lenblock ad.length cs.length]) ^^^ cipher iv0 s.rk ∧ t.dout = t.tag

/-! ### STATUS, errors and the whole machine -/

/-- R31, R32: where the fields of STATUS stand in its word, the reserved bits, which read 0, and the number of
each MODE: 0 IDLE, 1 CTR, 2 GCM_AAD, 3 GCM_ENC, 4 GCM_DONE, 5 FAILED. -/
def Obligations.StatusWordLayout : Prop :=
  (∀ s : Status,
    (s.mode = .idle → (statusWord s).extractLsb' 0 3 = 0#3) ∧
    (s.mode = .ctr → (statusWord s).extractLsb' 0 3 = 1#3) ∧
    (s.mode = .gcmAad → (statusWord s).extractLsb' 0 3 = 2#3) ∧
    (s.mode = .gcmEnc → (statusWord s).extractLsb' 0 3 = 3#3) ∧
    (s.mode = .gcmDone → (statusWord s).extractLsb' 0 3 = 4#3) ∧
    (s.mode = .failed → (statusWord s).extractLsb' 0 3 = 5#3) ∧
    (statusWord s).getLsbD 3 = s.kvalid ∧
    (statusWord s).getLsbD 4 = s.lerr ∧
    (statusWord s).getLsbD 5 = s.serr ∧
    (statusWord s).extractLsb' 6 2 = 0#2 ∧
    (statusWord s).extractLsb' 8 8 = s.ecode ∧
    (statusWord s).extractLsb' 16 16 = 0#16 ∧
    ((statusWord s).extractLsb' 0 3).toNat ≤ 5) ∧
  ∀ s t : Status, statusWord t = statusWord s → t = s

/-- R12, R13, R63 to R65: byte 0 is the most significant; the State view is column-major; the 32-bit form
has the value's number. -/
def Obligations.BlockLayout : Prop :=
  (∀ b : Block, int128 b = ((List.range 16).map fun k => (byteAt b k).toNat * 2 ^ (8 * (15 - k))).sum) ∧
  (∀ b : Block, int128 b = top64 b * 2 ^ 64 + bottom64 b ∧ blk128 (int128 b) = b) ∧
  (∀ (b : Block) (r c : Nat), r < 4 → c < 4 →
    elem b r c = byteAt b (r + 4 * c) ∧ wordByte (col b c) r = elem b r c) ∧
  ∀ v : Word, int128 (wordResult v) = v.toNat

/-- R272: `raise`, and that a command that ends as a failure wrote nothing but STATUS. -/
def Obligations.FailureWritesOnlyStatus : Prop :=
  (∀ (e : ErrorCode) (s : State), raise e s = .next (failedWith (errorNumber e).toNat s)) ∧
  ∀ (i : Instr) (s t : State), exec i s = .next t → t.status.lerr = true →
    ∃ code : Nat, 2 ≤ code ∧ code ≤ 10 ∧ t = failedWith code s

/-- R273: `complete`, and that a command that succeeds leaves SERR and ECODE, but for CLRERR. -/
def Obligations.SuccessKeepsErrorRecord : Prop :=
  (∀ s : State, complete s = .next (completedWith s)) ∧
  ∀ (i : Instr) (s t : State), exec i s = .next t → t.status.lerr = false → i ≠ .clrerr →
    t.status.serr = s.status.serr ∧ t.status.ecode = s.status.ecode

/-- R275: every command makes its checks in the listed order, fails with the first that fails, and completes
if none does. -/
def Obligations.FirstFailingCheckIsReported : Prop :=
  ∀ (i : Instr) (s : State), ∃ t, exec i s = .next t ∧
    match (checkList i s).find? (fun c => c.2) with
    | some c => t = failedWith c.1 s
    | none => t.status.lerr = false

/-- The MODE table the spec infers in R276: every transition, on success, on failure, and on reset. -/
def Obligations.ModeTransitions : Prop :=
  (∀ (i : Instr) (s t : State), exec i s = .next t →
    (t.status.lerr = false →
      acceptedIn i s.status.mode = true ∧ t.status.mode = modeOnSuccess i s.status.mode) ∧
    (t.status.lerr = true → t.status.ecode.toNat < 4 → t.status.mode = s.status.mode) ∧
    (t.status.lerr = true → 4 ≤ t.status.ecode.toNat → canEndChain i = true ∧ t.status.mode = .failed) ∧
    (s.status.kvalid = true → acceptedIn i s.status.mode = false → t = failedWith 4 s)) ∧
  ∀ (s t : State) (aborted : Option Transaction) (rest : List HostEvent),
    s.host = .reset aborted :: rest → step s = .next t → t.status.mode = .idle

/-- R302: no command sets MODE to IDLE, and only KEY_EXPAND writes the round keys, always with
KeyExpansion(KEY) and KVALID = 1. -/
def Obligations.NoCommandResets : Prop :=
  ∀ (i : Instr) (s t : State), exec i s = .next t →
    (t.status.mode = .idle → s.status.mode = .idle) ∧
    (t.rk ≠ s.rk → i = .keyExpand ∧ t.rk = keyExpansion t.key ∧ t.status.kvalid = true)

/-- The KVALID invariant the spec infers in R33, kept by every step, with the commands that set it, clear it
and change KEY. -/
def Obligations.KeysValidKept : Prop :=
  (∀ s t : State, KeysValid s → step s = .next t → KeysValid t) ∧
  (∀ (i : Instr) (s t : State), exec i s = .next t → s.status.kvalid = false → t.status.kvalid = true →
    i = .keyExpand ∧ t.rk = keyExpansion s.key) ∧
  (∀ (i : Instr) (s t : State), exec i s = .next t → t.key ≠ s.key →
    i = .wr 0x00#8 ∧ t.status.kvalid = false) ∧
  State.reset.status.kvalid = false

/-- R31, R270, R272, R273: every step keeps LERR, SERR and ECODE consistent. -/
def Obligations.ErrorRecordKept : Prop :=
  ∀ s t : State, ErrorRecordConsistent s → step s = .next t → ErrorRecordConsistent t

/-- R39, R225: every step keeps CCNT in its range and MODE in agreement with it. -/
def Obligations.CipherCountKept : Prop :=
  ∀ s t : State, CipherCountInRange s → step s = .next t → CipherCountInRange t

/-- The three invariants hold after reset (R50). -/
def Obligations.ResetMeetsInvariants : Prop :=
  KeysValid State.reset ∧ ErrorRecordConsistent State.reset ∧ CipherCountInRange State.reset

/-- R23 to R30, R34 to R40: which commands can change each register; the host's side of the port is
changed by none. -/
def Obligations.RegisterWriters : Prop :=
  ∀ (i : Instr) (s t : State), exec i s = .next t →
    (t.key ≠ s.key → i = .wr 0x00#8) ∧
    (t.iv ≠ s.iv → i = .wr 0x01#8) ∧
    (t.st ≠ s.st →
      i = .wr 0x02#8 ∨ i = .subBytes ∨ i = .shiftRows ∨ i = .mixColumns ∨ ∃ n, i = .addRk n) ∧
    (t.exp ≠ s.exp → i = .wr 0x03#8) ∧
    (t.ctrin ≠ s.ctrin → i = .wr 0x04#8) ∧
    (t.dout ≠ s.dout → i ≠ .nop ∧ i ≠ .clrerr ∧ i ≠ .keyExpand ∧ ∀ n, i ≠ .wr n) ∧
    (t.liv ≠ s.liv → i = .gcmSetup ∨ ∃ v, i = .ctrBase v) ∧
    (t.kc ≠ s.kc → i = .gcmSetup ∨ ∃ v, i = .ctrBase v) ∧
    (t.cc ≠ s.cc → ∃ v, i = .ctrBase v ∨ i = .ctrStep v) ∧
    (t.ctr ≠ s.ctr → ∃ v, i = .ctrBase v ∨ i = .ctrStep v) ∧
    (t.h ≠ s.h → i = .gcmSetup) ∧
    (t.tag ≠ s.tag → i = .gcmSetup ∨ i = .gcmAad ∨ ∃ v, i = .gcmEnc v ∨ i = .gcmFinal v) ∧
    (t.acnt ≠ s.acnt → i = .gcmSetup ∨ i = .gcmAad) ∧
    (t.ccnt ≠ s.ccnt → i = .gcmSetup ∨ ∃ v, i = .gcmEnc v) ∧
    (t.rk ≠ s.rk → i = .keyExpand) ∧
    t.din = s.din ∧ t.host = s.host

/-- R84: a command that does not use `din` ignores its value. That GCM_FINAL is one of them is the model's
reading (log entry 9): R70 counts it among the commands that use `din`, R82 and R226 give it none. -/
def Obligations.UnusedDinIsIgnored : Prop :=
  ∀ (i : Instr) (s : State) (d : Block), usesDin i = false →
    exec i { s with din := d } = mapNext (fun t => { t with din := d }) (exec i s)

/-- R26, R27, R86: EXP is read only with V = 1 and CTRIN only by CTR_STEP, apart from RD of the register
itself. -/
def Obligations.ExpAndCtrinReaders : Prop :=
  (∀ (i : Instr) (s : State) (x : Block), touchesExp i = false →
    exec i { s with exp := x } = mapNext (fun t => { t with exp := x }) (exec i s)) ∧
  ∀ (i : Instr) (s : State) (n : Word), touchesCtrin i = false →
    exec i { s with ctrin := n } = mapNext (fun t => { t with ctrin := n }) (exec i s)

/-- R311: WR KEY leaves KVALID = 0 and the round keys of the earlier key; every command other than KEY_EXPAND
keeps both so; and while KVALID = 0 every key-using command fails with NO_KEY. So from WR KEY until KEY_EXPAND
each of them does, and RD of a round key returns the old one. -/
def Obligations.KeyMustBeReexpanded : Prop :=
  (∀ s t : State, exec (.wr 0x00#8) s = .next t → t.status.kvalid = false ∧ t.rk = s.rk) ∧
  (∀ (i : Instr) (s t : State), s.status.kvalid = false → i ≠ .keyExpand → exec i s = .next t →
    t.status.kvalid = false ∧ t.rk = s.rk) ∧
  (∀ (i : Instr) (s : State), s.status.kvalid = false → needsKey i = true →
    exec i s = .next (failedWith 3 s)) ∧
  ∀ (s : State) (j : Fin 11), s.status.kvalid = false →
    exec (.rd (BitVec.ofNat 8 (0x10 + j.val))) s = .next (completedWith { s with dout := s.rk[j] })

/-- What the spec infers in R71: repeating NOP, RD, a GF command, ENCRYPT or WR with the same operands
leaves the same state, and so does a round transform on the same ST. RD STATUS is meant with LERR = 0 before
it, since its first execution changes the value it reads (log entry 5). -/
def Obligations.RepeatedCommandsAreIdempotent : Prop :=
  ∀ (a b : Byte) (s t : State),
    (∀ i : Instr,
      (i = .nop ∨ i = .gf8Add a b ∨ i = .gf8Xtime a ∨ i = .gf8Mul a b ∨ i = .gf8Inv a ∨ i = .gf8Affine a ∨
        i = .gf8Sbox a ∨ i = .gf128Add ∨ i = .gf128Mul ∨ i = .encrypt ∨ i = .wr a ∨
        (i = .rd a ∧ (a = 0x06#8 → s.status.lerr = false))) →
      exec i s = .next t → exec i t = .next t) ∧
    (∀ i : Instr, (i = .subBytes ∨ i = .shiftRows ∨ i = .mixColumns ∨ i = .addRk a) →
      exec i s = .next t → exec i { t with st := s.st } = .next t)

/-- R90: the exact expansion of each pseudo-instruction, and that SETKEY run from any state leaves KEY
expanded and valid. -/
def Obligations.PseudoInstructionExpansions : Prop :=
  (∀ k : Block, (setKey k).map (·.cmd) = [0x00000003#32, 0x00000028#32] ∧
    (setKey k).head?.map (·.din) = some k) ∧
  (∀ n : Word, setCtr n = [{ cmd := 0x00000403#32, din := 0#96 ++ n }]) ∧
  rdStatus.map (·.cmd) = [0x00000602#32] ∧
  (∀ x : Block, expect x = [{ cmd := 0x00000303#32, din := x }]) ∧
  ∀ (s : State) (k : Block) (rest : List HostEvent),
    s.host = (setKey k).map .transact ++ rest →
    ∃ t, Host.Core.run core 2 s = .next t ∧
      t.key = k ∧ t.rk = keyExpansion k ∧ t.status.kvalid = true ∧ t.host = rest
end

