-- ==== Sys2Proof/Laws/Layout.lean ====
section
/-! SUPPORT. The views of a block: reading back what a block, a word or a mixed column was built from. -/

namespace Sys2Proof.Machine

/-- Byte `k` of a block built byte by byte. -/
theorem byteAt_blockOf (f : Nat → Byte) {k : Nat} (h : k < 16) : byteAt (blockOf f) k = f k := by
  unfold byteAt blockOf
  interval_cases k <;>
    (apply BitVec.eq_of_getLsbD_eq
     intro i hi
     simp only [BitVec.getLsbD_extractLsb', BitVec.getLsbD_append, hi, decide_true, Bool.true_and]
     interval_cases i <;> simp)

/-- Column `c` of a block built from its columns. -/
theorem col_ofCols (c0 c1 c2 c3 : Word) :
    col (ofCols c0 c1 c2 c3) 0 = c0 ∧ col (ofCols c0 c1 c2 c3) 1 = c1 ∧
    col (ofCols c0 c1 c2 c3) 2 = c2 ∧ col (ofCols c0 c1 c2 c3) 3 = c3 := by
  refine ⟨?_, ?_, ?_, ?_⟩ <;>
    (unfold col ofCols
     apply BitVec.eq_of_getLsbD_eq
     intro i hi
     simp only [BitVec.getLsbD_extractLsb', BitVec.getLsbD_append, hi, decide_true, Bool.true_and]
     interval_cases i <;> simp)

/-- Byte `r` of a word built from its bytes. -/
theorem wordByte_wordOf (a b c d : Byte) :
    wordByte (wordOf a b c d) 0 = a ∧ wordByte (wordOf a b c d) 1 = b ∧
    wordByte (wordOf a b c d) 2 = c ∧ wordByte (wordOf a b c d) 3 = d := by
  refine ⟨?_, ?_, ?_, ?_⟩ <;>
    (unfold wordByte wordOf
     apply BitVec.eq_of_getLsbD_eq
     intro i hi
     simp only [BitVec.getLsbD_extractLsb', BitVec.getLsbD_append, hi, decide_true, Bool.true_and]
     interval_cases i <;> simp)

/-- Each byte of a mixed column is its row's sum (R144). -/
theorem wordByte_mixColumn (w : Word) {r : Nat} (h : r < 4) : wordByte (mixColumn w) r = mixByte w r := by
  obtain ⟨h0, h1, h2, h3⟩ := wordByte_wordOf (mixByte w 0) (mixByte w 1) (mixByte w 2) (mixByte w 3)
  interval_cases r
  · exact h0
  · exact h1
  · exact h2
  · exact h3

/-- The matrix by its rows (R144). -/
theorem mixCoefficient_rows :
    (List.range 4).map (fun r => (List.range 4).map (mixCoefficient r)) = Config.mixMatrix := by decide

end Sys2Proof.Machine
end

