-- ==== Sys2Proof/Laws/State.lean ====
section
/-! SUPPORT. One lemma per field per named update of the state, true by rfl, so that no proof unfolds a
record update. -/

namespace Sys2Proof.Machine

@[simp] theorem succeed_key (s : State) : (succeed s).key = s.key := rfl
@[simp] theorem succeed_iv (s : State) : (succeed s).iv = s.iv := rfl
@[simp] theorem succeed_st (s : State) : (succeed s).st = s.st := rfl
@[simp] theorem succeed_exp (s : State) : (succeed s).exp = s.exp := rfl
@[simp] theorem succeed_ctrin (s : State) : (succeed s).ctrin = s.ctrin := rfl
@[simp] theorem succeed_dout (s : State) : (succeed s).dout = s.dout := rfl
@[simp] theorem succeed_status (s : State) : (succeed s).status = succeedStatus s.status := rfl
@[simp] theorem succeed_liv (s : State) : (succeed s).liv = s.liv := rfl
@[simp] theorem succeed_kc (s : State) : (succeed s).kc = s.kc := rfl
@[simp] theorem succeed_cc (s : State) : (succeed s).cc = s.cc := rfl
@[simp] theorem succeed_ctr (s : State) : (succeed s).ctr = s.ctr := rfl
@[simp] theorem succeed_h (s : State) : (succeed s).h = s.h := rfl
@[simp] theorem succeed_tag (s : State) : (succeed s).tag = s.tag := rfl
@[simp] theorem succeed_acnt (s : State) : (succeed s).acnt = s.acnt := rfl
@[simp] theorem succeed_ccnt (s : State) : (succeed s).ccnt = s.ccnt := rfl
@[simp] theorem succeed_rk (s : State) : (succeed s).rk = s.rk := rfl
@[simp] theorem succeed_din (s : State) : (succeed s).din = s.din := rfl
@[simp] theorem succeed_host (s : State) : (succeed s).host = s.host := rfl

@[simp] theorem failWith_key (e : ErrorCode) (s : State) : (failWith e s).key = s.key := rfl
@[simp] theorem failWith_iv (e : ErrorCode) (s : State) : (failWith e s).iv = s.iv := rfl
@[simp] theorem failWith_st (e : ErrorCode) (s : State) : (failWith e s).st = s.st := rfl
@[simp] theorem failWith_exp (e : ErrorCode) (s : State) : (failWith e s).exp = s.exp := rfl
@[simp] theorem failWith_ctrin (e : ErrorCode) (s : State) : (failWith e s).ctrin = s.ctrin := rfl
@[simp] theorem failWith_dout (e : ErrorCode) (s : State) : (failWith e s).dout = s.dout := rfl
@[simp] theorem failWith_status (e : ErrorCode) (s : State) : (failWith e s).status = failStatus e s.status := rfl
@[simp] theorem failWith_liv (e : ErrorCode) (s : State) : (failWith e s).liv = s.liv := rfl
@[simp] theorem failWith_kc (e : ErrorCode) (s : State) : (failWith e s).kc = s.kc := rfl
@[simp] theorem failWith_cc (e : ErrorCode) (s : State) : (failWith e s).cc = s.cc := rfl
@[simp] theorem failWith_ctr (e : ErrorCode) (s : State) : (failWith e s).ctr = s.ctr := rfl
@[simp] theorem failWith_h (e : ErrorCode) (s : State) : (failWith e s).h = s.h := rfl
@[simp] theorem failWith_tag (e : ErrorCode) (s : State) : (failWith e s).tag = s.tag := rfl
@[simp] theorem failWith_acnt (e : ErrorCode) (s : State) : (failWith e s).acnt = s.acnt := rfl
@[simp] theorem failWith_ccnt (e : ErrorCode) (s : State) : (failWith e s).ccnt = s.ccnt := rfl
@[simp] theorem failWith_rk (e : ErrorCode) (s : State) : (failWith e s).rk = s.rk := rfl
@[simp] theorem failWith_din (e : ErrorCode) (s : State) : (failWith e s).din = s.din := rfl
@[simp] theorem failWith_host (e : ErrorCode) (s : State) : (failWith e s).host = s.host := rfl

@[simp] theorem writeDout_key (v : Block) (s : State) : (writeDout v s).key = s.key := rfl
@[simp] theorem writeDout_iv (v : Block) (s : State) : (writeDout v s).iv = s.iv := rfl
@[simp] theorem writeDout_st (v : Block) (s : State) : (writeDout v s).st = s.st := rfl
@[simp] theorem writeDout_exp (v : Block) (s : State) : (writeDout v s).exp = s.exp := rfl
@[simp] theorem writeDout_ctrin (v : Block) (s : State) : (writeDout v s).ctrin = s.ctrin := rfl
@[simp] theorem writeDout_dout (v : Block) (s : State) : (writeDout v s).dout = v := rfl
@[simp] theorem writeDout_status (v : Block) (s : State) : (writeDout v s).status = s.status := rfl
@[simp] theorem writeDout_liv (v : Block) (s : State) : (writeDout v s).liv = s.liv := rfl
@[simp] theorem writeDout_kc (v : Block) (s : State) : (writeDout v s).kc = s.kc := rfl
@[simp] theorem writeDout_cc (v : Block) (s : State) : (writeDout v s).cc = s.cc := rfl
@[simp] theorem writeDout_ctr (v : Block) (s : State) : (writeDout v s).ctr = s.ctr := rfl
@[simp] theorem writeDout_h (v : Block) (s : State) : (writeDout v s).h = s.h := rfl
@[simp] theorem writeDout_tag (v : Block) (s : State) : (writeDout v s).tag = s.tag := rfl
@[simp] theorem writeDout_acnt (v : Block) (s : State) : (writeDout v s).acnt = s.acnt := rfl
@[simp] theorem writeDout_ccnt (v : Block) (s : State) : (writeDout v s).ccnt = s.ccnt := rfl
@[simp] theorem writeDout_rk (v : Block) (s : State) : (writeDout v s).rk = s.rk := rfl
@[simp] theorem writeDout_din (v : Block) (s : State) : (writeDout v s).din = s.din := rfl
@[simp] theorem writeDout_host (v : Block) (s : State) : (writeDout v s).host = s.host := rfl

@[simp] theorem writeSt_key (v : Block) (s : State) : (writeSt v s).key = s.key := rfl
@[simp] theorem writeSt_iv (v : Block) (s : State) : (writeSt v s).iv = s.iv := rfl
@[simp] theorem writeSt_st (v : Block) (s : State) : (writeSt v s).st = v := rfl
@[simp] theorem writeSt_exp (v : Block) (s : State) : (writeSt v s).exp = s.exp := rfl
@[simp] theorem writeSt_ctrin (v : Block) (s : State) : (writeSt v s).ctrin = s.ctrin := rfl
@[simp] theorem writeSt_dout (v : Block) (s : State) : (writeSt v s).dout = v := rfl
@[simp] theorem writeSt_status (v : Block) (s : State) : (writeSt v s).status = s.status := rfl
@[simp] theorem writeSt_liv (v : Block) (s : State) : (writeSt v s).liv = s.liv := rfl
@[simp] theorem writeSt_kc (v : Block) (s : State) : (writeSt v s).kc = s.kc := rfl
@[simp] theorem writeSt_cc (v : Block) (s : State) : (writeSt v s).cc = s.cc := rfl
@[simp] theorem writeSt_ctr (v : Block) (s : State) : (writeSt v s).ctr = s.ctr := rfl
@[simp] theorem writeSt_h (v : Block) (s : State) : (writeSt v s).h = s.h := rfl
@[simp] theorem writeSt_tag (v : Block) (s : State) : (writeSt v s).tag = s.tag := rfl
@[simp] theorem writeSt_acnt (v : Block) (s : State) : (writeSt v s).acnt = s.acnt := rfl
@[simp] theorem writeSt_ccnt (v : Block) (s : State) : (writeSt v s).ccnt = s.ccnt := rfl
@[simp] theorem writeSt_rk (v : Block) (s : State) : (writeSt v s).rk = s.rk := rfl
@[simp] theorem writeSt_din (v : Block) (s : State) : (writeSt v s).din = s.din := rfl
@[simp] theorem writeSt_host (v : Block) (s : State) : (writeSt v s).host = s.host := rfl

@[simp] theorem accept_key (t : Transaction) (rest : List HostEvent) (s : State) : (accept t rest s).key = s.key := rfl
@[simp] theorem accept_iv (t : Transaction) (rest : List HostEvent) (s : State) : (accept t rest s).iv = s.iv := rfl
@[simp] theorem accept_st (t : Transaction) (rest : List HostEvent) (s : State) : (accept t rest s).st = s.st := rfl
@[simp] theorem accept_exp (t : Transaction) (rest : List HostEvent) (s : State) : (accept t rest s).exp = s.exp := rfl
@[simp] theorem accept_ctrin (t : Transaction) (rest : List HostEvent) (s : State) : (accept t rest s).ctrin = s.ctrin := rfl
@[simp] theorem accept_dout (t : Transaction) (rest : List HostEvent) (s : State) : (accept t rest s).dout = s.dout := rfl
@[simp] theorem accept_status (t : Transaction) (rest : List HostEvent) (s : State) : (accept t rest s).status = s.status := rfl
@[simp] theorem accept_liv (t : Transaction) (rest : List HostEvent) (s : State) : (accept t rest s).liv = s.liv := rfl
@[simp] theorem accept_kc (t : Transaction) (rest : List HostEvent) (s : State) : (accept t rest s).kc = s.kc := rfl
@[simp] theorem accept_cc (t : Transaction) (rest : List HostEvent) (s : State) : (accept t rest s).cc = s.cc := rfl
@[simp] theorem accept_ctr (t : Transaction) (rest : List HostEvent) (s : State) : (accept t rest s).ctr = s.ctr := rfl
@[simp] theorem accept_h (t : Transaction) (rest : List HostEvent) (s : State) : (accept t rest s).h = s.h := rfl
@[simp] theorem accept_tag (t : Transaction) (rest : List HostEvent) (s : State) : (accept t rest s).tag = s.tag := rfl
@[simp] theorem accept_acnt (t : Transaction) (rest : List HostEvent) (s : State) : (accept t rest s).acnt = s.acnt := rfl
@[simp] theorem accept_ccnt (t : Transaction) (rest : List HostEvent) (s : State) : (accept t rest s).ccnt = s.ccnt := rfl
@[simp] theorem accept_rk (t : Transaction) (rest : List HostEvent) (s : State) : (accept t rest s).rk = s.rk := rfl
@[simp] theorem accept_din (t : Transaction) (rest : List HostEvent) (s : State) : (accept t rest s).din = t.din := rfl
@[simp] theorem accept_host (t : Transaction) (rest : List HostEvent) (s : State) : (accept t rest s).host = rest := rfl

@[simp] theorem resetState_key (rest : List HostEvent) : (resetState rest).key = State.reset.key := rfl
@[simp] theorem resetState_iv (rest : List HostEvent) : (resetState rest).iv = State.reset.iv := rfl
@[simp] theorem resetState_st (rest : List HostEvent) : (resetState rest).st = State.reset.st := rfl
@[simp] theorem resetState_exp (rest : List HostEvent) : (resetState rest).exp = State.reset.exp := rfl
@[simp] theorem resetState_ctrin (rest : List HostEvent) : (resetState rest).ctrin = State.reset.ctrin := rfl
@[simp] theorem resetState_dout (rest : List HostEvent) : (resetState rest).dout = State.reset.dout := rfl
@[simp] theorem resetState_status (rest : List HostEvent) : (resetState rest).status = State.reset.status := rfl
@[simp] theorem resetState_liv (rest : List HostEvent) : (resetState rest).liv = State.reset.liv := rfl
@[simp] theorem resetState_kc (rest : List HostEvent) : (resetState rest).kc = State.reset.kc := rfl
@[simp] theorem resetState_cc (rest : List HostEvent) : (resetState rest).cc = State.reset.cc := rfl
@[simp] theorem resetState_ctr (rest : List HostEvent) : (resetState rest).ctr = State.reset.ctr := rfl
@[simp] theorem resetState_h (rest : List HostEvent) : (resetState rest).h = State.reset.h := rfl
@[simp] theorem resetState_tag (rest : List HostEvent) : (resetState rest).tag = State.reset.tag := rfl
@[simp] theorem resetState_acnt (rest : List HostEvent) : (resetState rest).acnt = State.reset.acnt := rfl
@[simp] theorem resetState_ccnt (rest : List HostEvent) : (resetState rest).ccnt = State.reset.ccnt := rfl
@[simp] theorem resetState_rk (rest : List HostEvent) : (resetState rest).rk = State.reset.rk := rfl
@[simp] theorem resetState_din (rest : List HostEvent) : (resetState rest).din = State.reset.din := rfl
@[simp] theorem resetState_host (rest : List HostEvent) : (resetState rest).host = rest := rfl

@[simp] theorem withFetchWord_key (s : State) (nbits w : Nat) :
    (s.withFetchWord nbits w).key = s.key := rfl
@[simp] theorem withFetchWord_iv (s : State) (nbits w : Nat) :
    (s.withFetchWord nbits w).iv = s.iv := rfl
@[simp] theorem withFetchWord_st (s : State) (nbits w : Nat) :
    (s.withFetchWord nbits w).st = s.st := rfl
@[simp] theorem withFetchWord_exp (s : State) (nbits w : Nat) :
    (s.withFetchWord nbits w).exp = s.exp := rfl
@[simp] theorem withFetchWord_ctrin (s : State) (nbits w : Nat) :
    (s.withFetchWord nbits w).ctrin = s.ctrin := rfl
@[simp] theorem withFetchWord_dout (s : State) (nbits w : Nat) :
    (s.withFetchWord nbits w).dout = s.dout := rfl
@[simp] theorem withFetchWord_status (s : State) (nbits w : Nat) :
    (s.withFetchWord nbits w).status = s.status := rfl
@[simp] theorem withFetchWord_liv (s : State) (nbits w : Nat) :
    (s.withFetchWord nbits w).liv = s.liv := rfl
@[simp] theorem withFetchWord_kc (s : State) (nbits w : Nat) :
    (s.withFetchWord nbits w).kc = s.kc := rfl
@[simp] theorem withFetchWord_cc (s : State) (nbits w : Nat) :
    (s.withFetchWord nbits w).cc = s.cc := rfl
@[simp] theorem withFetchWord_ctr (s : State) (nbits w : Nat) :
    (s.withFetchWord nbits w).ctr = s.ctr := rfl
@[simp] theorem withFetchWord_h (s : State) (nbits w : Nat) :
    (s.withFetchWord nbits w).h = s.h := rfl
@[simp] theorem withFetchWord_tag (s : State) (nbits w : Nat) :
    (s.withFetchWord nbits w).tag = s.tag := rfl
@[simp] theorem withFetchWord_acnt (s : State) (nbits w : Nat) :
    (s.withFetchWord nbits w).acnt = s.acnt := rfl
@[simp] theorem withFetchWord_ccnt (s : State) (nbits w : Nat) :
    (s.withFetchWord nbits w).ccnt = s.ccnt := rfl
@[simp] theorem withFetchWord_rk (s : State) (nbits w : Nat) :
    (s.withFetchWord nbits w).rk = s.rk := rfl
@[simp] theorem withFetchWord_din (s : State) (nbits w : Nat) :
    (s.withFetchWord nbits w).din = s.din := rfl
@[simp] theorem withFetchWord_host (s : State) (nbits w : Nat) :
    (s.withFetchWord nbits w).host = .transact { cmd := tableWord nbits w, din := s.din } :: s.host := rfl

/-! ### STATUS -/

@[simp] theorem succeedStatus_mode (s : Status) : (succeedStatus s).mode = s.mode := rfl
@[simp] theorem succeedStatus_kvalid (s : Status) : (succeedStatus s).kvalid = s.kvalid := rfl
@[simp] theorem succeedStatus_lerr (s : Status) : (succeedStatus s).lerr = false := rfl
@[simp] theorem succeedStatus_serr (s : Status) : (succeedStatus s).serr = s.serr := rfl
@[simp] theorem succeedStatus_ecode (s : Status) : (succeedStatus s).ecode = s.ecode := rfl

@[simp] theorem failStatus_mode (e : ErrorCode) (s : Status) :
    (failStatus e s).mode = if endsChain e then .failed else s.mode := rfl
@[simp] theorem failStatus_kvalid (e : ErrorCode) (s : Status) : (failStatus e s).kvalid = s.kvalid := rfl
@[simp] theorem failStatus_lerr (e : ErrorCode) (s : Status) : (failStatus e s).lerr = true := rfl
@[simp] theorem failStatus_serr (e : ErrorCode) (s : Status) : (failStatus e s).serr = true := rfl
@[simp] theorem failStatus_ecode (e : ErrorCode) (s : Status) : (failStatus e s).ecode = errorNumber e := rfl

@[simp] theorem clearErrorStatus_mode (s : Status) : (clearErrorStatus s).mode = s.mode := rfl
@[simp] theorem clearErrorStatus_kvalid (s : Status) : (clearErrorStatus s).kvalid = s.kvalid := rfl
@[simp] theorem clearErrorStatus_lerr (s : Status) : (clearErrorStatus s).lerr = s.lerr := rfl
@[simp] theorem clearErrorStatus_serr (s : Status) : (clearErrorStatus s).serr = false := rfl
@[simp] theorem clearErrorStatus_ecode (s : Status) : (clearErrorStatus s).ecode = 0#8 := rfl

end Sys2Proof.Machine
end

