-- ==== Sys2Proof/Laws/Ops.lean ====
section
/-! SUPPORT. One spec lemma for each shared operation: how a command ends, what each check asks, what an
error code does to MODE. -/

namespace Sys2Proof.Machine

/-! ### Error codes -/

/-- The category of each error (R270, R271). -/
theorem endsChain_eq (e : ErrorCode) :
    endsChain e = !(e = .illegalCmd ∨ e = .badOperand ∨ e = .noKey : Bool) := by
  cases e <;> decide

/-- Every code is 1 to 10 (R270). -/
theorem errorNumber_range (e : ErrorCode) : 1 ≤ (errorNumber e).toNat ∧ (errorNumber e).toNat ≤ 10 := by
  cases e <;> decide

theorem errorNumber_injective : Function.Injective errorNumber := by
  intro a b; cases a <;> cases b <;> decide

/-! ### Checks -/

@[simp] theorem firstFailure_nil : firstFailure [] = none := rfl
@[simp] theorem firstFailure_none_cons (cs : List (Option ErrorCode)) :
    firstFailure (none :: cs) = firstFailure cs := rfl
@[simp] theorem firstFailure_some_cons (e : ErrorCode) (cs : List (Option ErrorCode)) :
    firstFailure (some e :: cs) = some e := rfl

/-- No check fails iff each passes. -/
theorem firstFailure_eq_none (cs : List (Option ErrorCode)) :
    firstFailure cs = none ↔ ∀ c ∈ cs, c = none := by
  induction cs with
  | nil => simp
  | cons c cs ih => cases c <;> simp [ih]

/-- A reported error is one of the checks'. -/
theorem firstFailure_mem {cs : List (Option ErrorCode)} {e : ErrorCode} (h : firstFailure cs = some e) :
    some e ∈ cs := by
  induction cs with
  | nil => simp at h
  | cons c cs ih => cases c <;> simp_all

theorem failIf_eq_none (b : Bool) (e : ErrorCode) : failIf b e = none ↔ b = false := by
  cases b <;> simp [failIf]

theorem failIf_eq_some (b : Bool) (e e' : ErrorCode) : failIf b e = some e' ↔ b = true ∧ e = e' := by
  cases b <;> simp [failIf]

@[simp] theorem failIf_true (e : ErrorCode) : failIf true e = some e := rfl
@[simp] theorem failIf_false (e : ErrorCode) : failIf false e = none := rfl

theorem keyCheck_eq_none (s : State) : keyCheck s = none ↔ s.status.kvalid = true := by
  simp [keyCheck, failIf_eq_none]

theorem phaseCheck_eq_none (modes : List Mode) (s : State) :
    phaseCheck modes s = none ↔ s.status.mode ∈ modes := by
  simp [phaseCheck, failIf_eq_none]

theorem ivCheck_eq_none (s : State) : ivCheck s = none ↔ s.iv = s.liv := by
  simp [ivCheck, failIf_eq_none]

theorem commitCheck_eq_none (s : State) : commitCheck s = none ↔ Config.keyCommit s.key = s.kc := by
  simp [commitCheck, failIf_eq_none]

theorem hCheck_eq_none (s : State) : hCheck s = none ↔ cipher 0#128 s.rk = s.h := by
  simp [hCheck, failIf_eq_none]

theorem counterCheck_eq_none (s : State) : counterCheck s = none ↔ s.ctrin.toNat = s.ctr.toNat + 1 := by
  simp [counterCheck, failIf_eq_none]

theorem outputCheck_eq_none (v : Bool) (out : Block) (s : State) :
    outputCheck v out s = none ↔ (v = true → out = s.exp) := by
  simp [outputCheck, failIf_eq_none]

theorem aadLimitCheck_eq_none (s : State) : aadLimitCheck s = none ↔ s.acnt.toNat ≠ 2 ^ 32 - 1 := by
  rw [aadLimitCheck, failIf_eq_none, decide_eq_false_iff_not]

theorem encLimitCheck_eq_none (s : State) : encLimitCheck s = none ↔ s.ccnt.toNat < 2 ^ 32 - 2 := by
  rw [encLimitCheck, failIf_eq_none, decide_eq_false_iff_not, Nat.not_le]

/-! ### How a command ends -/

/-- `complete` and `raise` always answer a next state. -/
theorem complete_eq (s : State) : complete s = .next (succeed s) := rfl

theorem raise_eq (e : ErrorCode) (s : State) : raise e s = .next (failWith e s) := rfl

theorem checked_pass {cs : List (Option ErrorCode)} (h : ∀ c ∈ cs, c = none) (s t : State) :
    checked cs s t = .next (succeed t) := by
  simp [checked, (firstFailure_eq_none cs).2 h, complete_eq]

theorem checked_fail {cs : List (Option ErrorCode)} {e : ErrorCode} (h : firstFailure cs = some e)
    (s t : State) : checked cs s t = .next (failWith e s) := by
  simp [checked, h, raise_eq]

/-- Everything a checked command can do: complete with all checks passed, or fail with one of them and
write nothing but STATUS. -/
theorem checked_cases {cs : List (Option ErrorCode)} {s t u : State} (h : checked cs s t = .next u) :
    ((∀ c ∈ cs, c = none) ∧ u = succeed t) ∨
    (∃ e, firstFailure cs = some e ∧ some e ∈ cs ∧ u = failWith e s) := by
  cases hf : firstFailure cs with
  | none =>
    simp only [checked, hf, complete_eq, Host.Outcome.next.injEq] at h
    exact .inl ⟨(firstFailure_eq_none cs).1 hf, h.symm⟩
  | some e =>
    simp only [checked, hf, raise_eq, Host.Outcome.next.injEq] at h
    exact .inr ⟨e, rfl, firstFailure_mem hf, h.symm⟩

end Sys2Proof.Machine
end

