-- ==== Sys2Proof/Laws/Operands.lean ====
section
/-! SUPPORT. One spec lemma for each operand form: the register-number space, WR's writes, the round
index. -/

namespace Sys2Proof.Machine

/-- The numbers that name a register, against the check of WellFormed.lean (R22). -/
theorem regOfNumber_isSome (n : Byte) : (regOfNumber n).isSome = readableNumber n := by
  revert n; decide +kernel

/-- Everything WR can do: one of five writes, or BAD_OPERAND (R253). -/
theorem writeReg_cases (n : Byte) (v : Block) (s : State) :
    (n = 0x00#8 ∧ writeReg n v s = .ok { s with key := v, status := { s.status with kvalid := false } }) ∨
    (n = 0x01#8 ∧ writeReg n v s = .ok { s with iv := v }) ∨
    (n = 0x02#8 ∧ writeReg n v s = .ok { s with st := v }) ∨
    (n = 0x03#8 ∧ writeReg n v s = .ok { s with exp := v }) ∨
    (n = 0x04#8 ∧ high96 v = 0#96 ∧ writeReg n v s = .ok { s with ctrin := low32 v }) ∨
    ((4 < n.toNat ∨ (n = 0x04#8 ∧ high96 v ≠ 0#96)) ∧ writeReg n v s = .error .badOperand) := by
  by_cases h0 : n = 0x00#8
  · subst h0; simp [writeReg]
  by_cases h1 : n = 0x01#8
  · subst h1; simp [writeReg]
  by_cases h2 : n = 0x02#8
  · subst h2; simp [writeReg]
  by_cases h3 : n = 0x03#8
  · subst h3; simp [writeReg]
  by_cases h4 : n = 0x04#8
  · subst h4
    by_cases hv : high96 v = 0#96 <;> simp [writeReg, hv]
  have hn : 4 < n.toNat := by bv_omega
  simp [writeReg, h0, h1, h2, h3, h4, hn]

/-- The round index of a byte: itself, if it is 0 to 10 (R155). -/
theorem roundIndex_eq_some (n : Byte) (i : Fin 11) : roundIndex n = some i ↔ n.toNat = i.val := by
  unfold roundIndex
  split
  · simp [Fin.ext_iff]
  · rename_i h; simp only [reduceCtorEq, false_iff]; omega

theorem roundIndex_eq_none (n : Byte) : roundIndex n = none ↔ 10 < n.toNat := by
  unfold roundIndex
  split <;> simp <;> omega

/-- `readReg` never depends on the host's side of the port. -/
theorem readReg_accept (r : Reg) (t : Transaction) (rest : List HostEvent) (s : State) :
    readReg r (accept t rest s) = readReg r s := by
  cases r <;> rfl

end Sys2Proof.Machine
end

