-- ==== Sys2Proof/Laws/PerInstr.lean ====
section
/-! SUPPORT. Statements about every instruction as syntax, one lemma per constructor. The family
`EncodedFields` says where the encoder puts each operand, which is what the round trip rests on. -/

namespace Sys2Proof.Laws.EncodedFields

/-- The fields of R81 read back from a word laid out from them. -/
theorem commandWord_fields (op a b : Byte) (v : Bool) :
    opField (commandWord op a b v) = op ∧ aField (commandWord op a b v) = a ∧
    bField (commandWord op a b v) = b ∧ vField (commandWord op a b v) = v ∧
    rsvField (commandWord op a b v) = 0#7 := by
  refine ⟨?_, ?_, ?_, ?_, ?_⟩
  · apply BitVec.eq_of_getLsbD_eq
    intro i hi
    simp only [opField, commandWord, BitVec.getLsbD_extractLsb', BitVec.getLsbD_append, hi, decide_true,
      Bool.true_and]
    interval_cases i <;> simp
  · apply BitVec.eq_of_getLsbD_eq
    intro i hi
    simp only [aField, commandWord, BitVec.getLsbD_extractLsb', BitVec.getLsbD_append, hi, decide_true,
      Bool.true_and]
    interval_cases i <;> simp
  · apply BitVec.eq_of_getLsbD_eq
    intro i hi
    simp only [bField, commandWord, BitVec.getLsbD_extractLsb', BitVec.getLsbD_append, hi, decide_true,
      Bool.true_and]
    interval_cases i <;> simp
  · simp only [vField, commandWord, BitVec.getLsbD_append]
    cases v <;> simp
  · apply BitVec.eq_of_getLsbD_eq
    intro i hi
    simp only [rsvField, commandWord, BitVec.getLsbD_extractLsb', BitVec.getLsbD_append, hi, decide_true,
      Bool.true_and]
    interval_cases i <;> simp

/-- The fields of an instruction: opcode, A, B, V (R82, R84). -/
def fields : Instr → Byte × Byte × Byte × Bool
  | .nop => (0x00#8, 0, 0, false)
  | .clrerr => (0x01#8, 0, 0, false)
  | .rd a => (0x02#8, a, 0, false)
  | .wr a => (0x03#8, a, 0, false)
  | .gf8Add a b => (0x10#8, a, b, false)
  | .gf8Xtime a => (0x11#8, a, 0, false)
  | .gf8Mul a b => (0x12#8, a, b, false)
  | .gf8Inv a => (0x13#8, a, 0, false)
  | .gf8Affine a => (0x14#8, a, 0, false)
  | .gf8Sbox a => (0x15#8, a, 0, false)
  | .gf128Add => (0x18#8, 0, 0, false)
  | .gf128Mul => (0x19#8, 0, 0, false)
  | .subBytes => (0x20#8, 0, 0, false)
  | .shiftRows => (0x21#8, 0, 0, false)
  | .mixColumns => (0x22#8, 0, 0, false)
  | .addRk a => (0x23#8, a, 0, false)
  | .keyExpand => (0x28#8, 0, 0, false)
  | .encrypt => (0x29#8, 0, 0, false)
  | .ctrBase v => (0x30#8, 0, 0, v)
  | .ctrStep v => (0x31#8, 0, 0, v)
  | .gcmSetup => (0x40#8, 0, 0, false)
  | .gcmAad => (0x41#8, 0, 0, false)
  | .gcmEnc v => (0x42#8, 0, 0, v)
  | .gcmFinal v => (0x43#8, 0, 0, v)

/-- The encoder puts the opcode, A, B and V of the instruction in their fields and leaves RSV zero. -/
def Statement (i : Instr) : Prop :=
  opField (encode i) = (fields i).1 ∧ aField (encode i) = (fields i).2.1 ∧
  bField (encode i) = (fields i).2.2.1 ∧ vField (encode i) = (fields i).2.2.2 ∧ rsvField (encode i) = 0#7

theorem nop : Statement .nop := commandWord_fields _ _ _ _
theorem clrerr : Statement .clrerr := commandWord_fields _ _ _ _
theorem rd (a : Byte) : Statement (.rd a) := commandWord_fields _ _ _ _
theorem wr (a : Byte) : Statement (.wr a) := commandWord_fields _ _ _ _
theorem gf8Add (a b : Byte) : Statement (.gf8Add a b) := commandWord_fields _ _ _ _
theorem gf8Xtime (a : Byte) : Statement (.gf8Xtime a) := commandWord_fields _ _ _ _
theorem gf8Mul (a b : Byte) : Statement (.gf8Mul a b) := commandWord_fields _ _ _ _
theorem gf8Inv (a : Byte) : Statement (.gf8Inv a) := commandWord_fields _ _ _ _
theorem gf8Affine (a : Byte) : Statement (.gf8Affine a) := commandWord_fields _ _ _ _
theorem gf8Sbox (a : Byte) : Statement (.gf8Sbox a) := commandWord_fields _ _ _ _
theorem gf128Add : Statement .gf128Add := commandWord_fields _ _ _ _
theorem gf128Mul : Statement .gf128Mul := commandWord_fields _ _ _ _
theorem subBytes : Statement .subBytes := commandWord_fields _ _ _ _
theorem shiftRows : Statement .shiftRows := commandWord_fields _ _ _ _
theorem mixColumns : Statement .mixColumns := commandWord_fields _ _ _ _
theorem addRk (a : Byte) : Statement (.addRk a) := commandWord_fields _ _ _ _
theorem keyExpand : Statement .keyExpand := commandWord_fields _ _ _ _
theorem encrypt : Statement .encrypt := commandWord_fields _ _ _ _
theorem ctrBase (v : Bool) : Statement (.ctrBase v) := commandWord_fields _ _ _ _
theorem ctrStep (v : Bool) : Statement (.ctrStep v) := commandWord_fields _ _ _ _
theorem gcmSetup : Statement .gcmSetup := commandWord_fields _ _ _ _
theorem gcmAad : Statement .gcmAad := commandWord_fields _ _ _ _
theorem gcmEnc (v : Bool) : Statement (.gcmEnc v) := commandWord_fields _ _ _ _
theorem gcmFinal (v : Bool) : Statement (.gcmFinal v) := commandWord_fields _ _ _ _

end Sys2Proof.Laws.EncodedFields
end

