-- ==== Sys2Proof/Laws/Step.lean ====
section
/-! SUPPORT. Everything a step can do. -/

namespace Sys2Proof.Machine

/-- One step: idle, reset, an illegal word, or one command. -/
theorem step_cases {s : State} {o : Result} (h : step s = o) :
    (s.host = [] ∧ o = .next s) ∨
    (∃ aborted rest, s.host = .reset aborted :: rest ∧ o = .next (resetState rest)) ∨
    (∃ t rest e, s.host = .transact t :: rest ∧ decode t.cmd = .error e ∧
      o = .next (failWith .illegalCmd (accept t rest s))) ∨
    (∃ t rest i, s.host = .transact t :: rest ∧ decode t.cmd = .ok i ∧ o = exec i (accept t rest s)) := by
  subst h
  unfold step
  split
  · exact .inl ⟨‹_›, rfl⟩
  · exact .inr (.inl ⟨_, _, ‹_›, rfl⟩)
  · rename_i t rest hh
    cases hd : decode t.cmd with
    | ok i => exact .inr (.inr (.inr ⟨t, rest, i, hh, hd, rfl⟩))
    | error e => exact .inr (.inr (.inl ⟨t, rest, e, hh, hd, rfl⟩))

/-- The word placed by `withFetchWord` is the one the next step runs, from any state. -/
theorem step_withFetchWord (s : State) (nbits w : Nat) (i : Instr)
    (h : decodeTableWord nbits w = some i) : step (s.withFetchWord nbits w) = exec i s := by
  have hd : decode (tableWord nbits w) = .ok i := by
    unfold decodeTableWord at h
    cases hc : decode (tableWord nbits w) with
    | ok j => simp_all [Except.toOption]
    | error e => simp_all [Except.toOption]
  simp [step, State.withFetchWord, hd, accept]

end Sys2Proof.Machine
end

