-- ==== Sys2Proof/Tests/Slice0.lean ====
section
/-! SUPPORT. The model's own tests. The expected values are those of spec/95_test_vectors.md and of the
rules named; the last part shows a concrete case for every hypothesis of the statements. -/

namespace Sys2Proof.Tests

open Sys2Proof.Machine Sys2Proof.Safety

/-! ### Small states -/

/-- `s` with the host about to present one transaction. -/
def present (cmd : Word) (din : Block) (s : State) : State :=
  { s with host := [.transact { cmd := cmd, din := din }] }

/-- DOUT and STATUS after one step, if it answers a next state: the two columns of the spec's tables. -/
def seen (s : State) : Option (Block × Word) :=
  match step s with
  | .next t => some (observe t)
  | .fault _ => none
  | .refused _ => none

/-- DOUT and STATUS after one transaction. -/
def run (cmd : Word) (din : Block) (s : State) : Option (Block × Word) := seen (present cmd din s)

/-- The key of MINA §8 (E1, E2). -/
def keyA : Block := 0x2b7e151628aed2a6abf7158809cf4f3c#128

/-- The round keys of 0^128 (L2.4, column 3). -/
def roundKeysZero : Vector Block 11 :=
  #v[0x00000000000000000000000000000000#128, 0x62636363626363636263636362636363#128,
    0x9b9898c9f9fbfbaa9b9898c9f9fbfbaa#128, 0x90973450696ccffaf2f457330b0fac99#128,
    0xee06da7b876a1581759e42b27e91ee2b#128, 0x7f2e2b88f8443e098dda7cbbf34b9290#128,
    0xec614b851425758c99ff09376ab49ba7#128, 0x217517873550620bacaf6b3cc61bf09b#128,
    0x0ef903333ba9613897060a04511dfa9f#128, 0xb1d4d8e28a7db9da1d7bb3de4c664941#128,
    0xb4ef5bcb3e92e21123e951cf6f8f188e#128]

/-- KEY = 0^128, expanded. -/
def readyZero : State :=
  { State.reset with rk := roundKeysZero, status := { State.reset.status with kvalid := true } }

/-- The IV of G1 and G2. -/
def ivOne : Block := 1#128

/-- After CTR_BASE on a zero block with KEY = 0^128 and IV = 1, and WR CTRIN 1. -/
def ctrOpen : State :=
  { readyZero with
    iv := ivOne
    liv := ivOne
    kc := Config.keyCommit 0#128
    ctrin := 1#32
    cc := Config.cipherCommit Config.ccInit 0x58e2fccefa7e3061367f1d57a4e7455a#128
    dout := 0x58e2fccefa7e3061367f1d57a4e7455a#128
    status := { readyZero.status with mode := .ctr } }

/-- After the GCM_SETUP of G2. -/
def gcmOpen : State :=
  { readyZero with
    iv := ivOne
    liv := ivOne
    kc := Config.keyCommit 0#128
    h := 0x66e94bd4ef8a2c3b884cfa59ca342b2e#128
    dout := 0x66e94bd4ef8a2c3b884cfa59ca342b2e#128
    status := { readyZero.status with mode := .gcmAad } }

/-- After the GCM_ENC of G2. -/
def gcmOne : State :=
  { gcmOpen with
    tag := 0x5e2ec746917062882c85b0685353deb7#128
    ccnt := 1#32
    dout := 0x0388dace60b6a392f328c2b971b2fe78#128
    status := { gcmOpen.status with mode := .gcmEnc } }

/-- A block and the block with its last bit changed. -/
theorem ne_flip (x : Block) : x ≠ x ^^^ 1#128 := by
  intro h
  have h0 := congrArg (fun y => y.getLsbD 0) h
  simp at h0

/-! ### WellFormed smoke: each check refuses a bad term and accepts a good one -/

/-- R22: 0x0F and 0x1B name no register to RD, 0x05 is none WR may write, 11 is no round index. -/
theorem test_wellFormed_refuses :
    (Instr.rd 0x0F#8).wellFormed = false ∧ (Instr.rd 0x1B#8).wellFormed = false ∧
    (Instr.wr 0x05#8).wellFormed = false ∧ (Instr.addRk 11#8).wellFormed = false := by decide

theorem test_wellFormed_accepts :
    (Instr.rd 0x0E#8).wellFormed = true ∧ (Instr.rd 0x10#8).wellFormed = true ∧
    (Instr.rd 0x1A#8).wellFormed = true ∧ (Instr.wr 0x04#8).wellFormed = true ∧
    (Instr.addRk 10#8).wellFormed = true ∧ Instr.gcmAad.wellFormed = true := by decide

/-- L2.9: a nonzero A, B, V, RSV for a format without it, and reserved opcodes. -/
theorem test_legalCommand_refuses :
    legalCommand 0x00000100#32 = false ∧ legalCommand 0x00010011#32 = false ∧
    legalCommand 0x01000012#32 = false ∧ legalCommand 0x01000029#32 = false ∧
    legalCommand 0x80000010#32 = false ∧ legalCommand 0x02000000#32 = false ∧
    legalCommand 0x00000130#32 = false ∧ legalCommand 0x00000004#32 = false ∧
    legalCommand 0x00000016#32 = false ∧ legalCommand 0x00000044#32 = false ∧
    legalCommand 0x000000FF#32 = false := by decide

/-- L2.9: legal words, those with an operand that names nothing among them. -/
theorem test_legalCommand_accepts :
    legalCommand 0x00000000#32 = true ∧ legalCommand 0x00000F02#32 = true ∧
    legalCommand 0x00FFFF12#32 = true ∧ legalCommand 0x00000B23#32 = true ∧
    legalCommand 0x01000030#32 = true ∧ legalCommand 0x01000043#32 = true := by decide

/-! ### Decode: one word per constructor, written out from R81 to R84 -/

theorem test_decode_host :
    decode 0x00000000#32 = .ok .nop ∧ decode 0x00000001#32 = .ok .clrerr ∧
    decode 0x00000602#32 = .ok (.rd 0x06#8) ∧ decode 0x00000403#32 = .ok (.wr 0x04#8) := by decide

theorem test_decode_gf8 :
    decode 0x00835710#32 = .ok (.gf8Add 0x57#8 0x83#8) ∧ decode 0x00005711#32 = .ok (.gf8Xtime 0x57#8) ∧
    decode 0x00835712#32 = .ok (.gf8Mul 0x57#8 0x83#8) ∧ decode 0x00005313#32 = .ok (.gf8Inv 0x53#8) ∧
    decode 0x0000CA14#32 = .ok (.gf8Affine 0xCA#8) ∧ decode 0x00005315#32 = .ok (.gf8Sbox 0x53#8) := by decide

theorem test_decode_blocks :
    decode 0x00000018#32 = .ok .gf128Add ∧ decode 0x00000019#32 = .ok .gf128Mul ∧
    decode 0x00000020#32 = .ok .subBytes ∧ decode 0x00000021#32 = .ok .shiftRows ∧
    decode 0x00000022#32 = .ok .mixColumns ∧ decode 0x00000A23#32 = .ok (.addRk 10#8) ∧
    decode 0x00000028#32 = .ok .keyExpand ∧ decode 0x00000029#32 = .ok .encrypt := by decide

theorem test_decode_chains :
    decode 0x00000030#32 = .ok (.ctrBase false) ∧ decode 0x01000031#32 = .ok (.ctrStep true) ∧
    decode 0x00000040#32 = .ok .gcmSetup ∧ decode 0x00000041#32 = .ok .gcmAad ∧
    decode 0x00000042#32 = .ok (.gcmEnc false) ∧ decode 0x01000043#32 = .ok (.gcmFinal true) := by decide

/-- L2.9, the reserved opcodes at the edges of the gaps, and the fields that must be zero. -/
theorem test_decode_refuses :
    decode 0x00000004#32 = .error (.reservedOpcode 0x04#8) ∧
    decode 0x0000000F#32 = .error (.reservedOpcode 0x0F#8) ∧
    decode 0x0000001A#32 = .error (.reservedOpcode 0x1A#8) ∧
    decode 0x00000024#32 = .error (.reservedOpcode 0x24#8) ∧
    decode 0x0000002A#32 = .error (.reservedOpcode 0x2A#8) ∧
    decode 0x00000032#32 = .error (.reservedOpcode 0x32#8) ∧
    decode 0x00010602#32 = .error (.unusedFieldNonzero 0x02#8) ∧
    decode 0x01835710#32 = .error (.unusedFieldNonzero 0x10#8) ∧
    decode 0x01000041#32 = .error (.unusedFieldNonzero 0x41#8) ∧
    decode 0x80000000#32 = .error (.unusedFieldNonzero 0x00#8) := by decide

/-- The words of the examples of R89. -/
theorem test_encode :
    encode (.gf8Mul 0x57#8 0x83#8) = 0x00835712#32 ∧ encode (.wr 0x01#8) = 0x00000103#32 ∧
    encode (.addRk 10#8) = 0x00000A23#32 ∧ encode (.ctrStep true) = 0x01000031#32 := by decide

/-- The lines of the examples of R89. -/
theorem test_assembler_text :
    instrText (.gf8Mul 0x57#8 0x83#8) = "GF8_MUL 0x57, 0x83" ∧ instrText (.wr 0x01#8) = "WR IV" ∧
    instrText (.addRk 10#8) = "ADDRK 10" ∧ instrText (.ctrStep true) = "CTR_STEP.V" := by
  decide +kernel

/-- A table row's bits reach the decoder, and the word stored by `withFetchWord` is the one run next. -/
theorem test_tableWord :
    decodeTableWord 8 0x19 = some .gf128Mul ∧ decodeTableWord 32 0x00835712 = some (.gf8Mul 0x57#8 0x83#8) ∧
    seen (State.reset.withFetchWord 32 0x00835712) = some (0xc1000000000000000000000000000000#128, 0#32) := by
  decide +kernel

/-! ### Host commands (L2.10, P1) -/

/-- L2.10: STATUS 0x0000043D, then NOP gives 0x0000042D. -/
theorem test_nop :
    run 0x00000000#32 0#128
      { State.reset with
        status := { mode := .failed, kvalid := true, lerr := true, serr := true, ecode := 4#8 } } =
      some (0#128, 0x0000042D#32) := by decide +kernel

/-- L2.10: STATUS 0x0000043D, then CLRERR gives 0x0000000D. -/
theorem test_clrerr :
    run 0x00000001#32 0#128
      { State.reset with
        status := { mode := .failed, kvalid := true, lerr := true, serr := true, ecode := 4#8 } } =
      some (0#128, 0x0000000D#32) := by decide +kernel

/-- L2.10: RD STATUS reads the value before the command, and clears LERR. -/
theorem test_rd_status :
    run 0x00000602#32 0#128
      { State.reset with status := { State.reset.status with lerr := true, serr := true, ecode := 3#8 } } =
      some (0x330#128, 0x00000320#32) := by decide +kernel

/-- L2.10: RD CTRIN, and RD of numbers that name nothing. -/
theorem test_rd :
    run 0x00000402#32 0#128 { State.reset with ctrin := 0x12345678#32 } = some (0x12345678#128, 0#32) ∧
    run 0x00000F02#32 0#128 { State.reset with dout := 7#128 } = some (7#128, 0x00000230#32) ∧
    run 0x00001B02#32 0#128 State.reset = some (0#128, 0x00000230#32) := by decide +kernel

/-- L2.10: WR KEY clears KVALID; WR CTRIN with byte 11 nonzero and WR DOUT fail. -/
theorem test_wr :
    run 0x00000003#32 keyA { State.reset with status := { State.reset.status with kvalid := true } } =
      some (0#128, 0#32) ∧
    run 0x00000403#32 0x100000000#128 State.reset = some (0#128, 0x00000230#32) ∧
    run 0x00000503#32 0#128 State.reset = some (0#128, 0x00000230#32) := by decide +kernel

/-- L2.10: WR CTRIN takes bytes 12..15. -/
theorem test_wr_ctrin :
    (match step (present 0x00000403#32 1#128 State.reset) with
      | .next t => some (t.ctrin, t.key)
      | .fault _ => none
      | .refused _ => none) = some (1#32, 0#128) := by decide +kernel

/-! ### Field arithmetic (L2.1, L2.2) -/

theorem test_gf8Add : run 0x00835710#32 0#128 State.reset = some (0xd4#8 ++ 0#120, 0#32) := by decide +kernel

/-- xtime reduces exactly when the high bit is shifted out. -/
theorem test_gf8Xtime :
    run 0x00005711#32 0#128 State.reset = some (0xae#8 ++ 0#120, 0#32) ∧
    run 0x00008011#32 0#128 State.reset = some (0x1b#8 ++ 0#120, 0#32) := by decide +kernel

theorem test_gf8Mul :
    run 0x00835712#32 0#128 State.reset = some (0xc1#8 ++ 0#120, 0#32) ∧
    run 0x00FFFF12#32 0#128 State.reset = some (0x13#8 ++ 0#120, 0#32) := by decide +kernel

theorem test_gf8Inv :
    run 0x00005313#32 0#128 State.reset = some (0xca#8 ++ 0#120, 0#32) ∧
    run 0x00000013#32 0#128 State.reset = some (0#128, 0#32) := by decide +kernel

theorem test_gf8Affine :
    run 0x0000CA14#32 0#128 State.reset = some (0xed#8 ++ 0#120, 0#32) ∧
    run 0x0000FF14#32 0#128 State.reset = some (0x9c#8 ++ 0#120, 0#32) := by decide +kernel

theorem test_gf8Sbox :
    run 0x00005315#32 0#128 State.reset = some (0xed#8 ++ 0#120, 0#32) ∧
    run 0x00000015#32 0#128 State.reset = some (0x63#8 ++ 0#120, 0#32) := by decide +kernel

theorem test_gf128Add :
    run 0x00000018#32 1#128 { State.reset with st := 0xff#128 } = some (0xfe#128, 0#32) := by decide +kernel

theorem test_gf128Mul :
    run 0x00000019#32 0x66e94bd4ef8a2c3b884cfa59ca342b2e#128
      { State.reset with st := 0x0388dace60b6a392f328c2b971b2fe78#128 } =
      some (0x5e2ec746917062882c85b0685353deb7#128, 0#32) := by decide +kernel

/-- x^127 · x = 1 + x + x^2 + x^7: the reflected bit order. -/
theorem test_gf128Mul_reduces :
    run 0x00000019#32 0x40000000000000000000000000000000#128 { State.reset with st := 1#128 } =
      some (0xe1000000000000000000000000000000#128, 0#32) := by decide +kernel

/-! ### Round transforms (L2.3, E4) and the key schedule (L2.4) -/

theorem test_subBytes :
    run 0x00000020#32 0#128 { State.reset with st := 0x000102030405060708090a0b0c0d0e0f#128 } =
      some (0x637c777bf26b6fc53001672bfed7ab76#128, 0#32) := by decide +kernel

theorem test_shiftRows :
    run 0x00000021#32 0#128 { State.reset with st := 0x000102030405060708090a0b0c0d0e0f#128 } =
      some (0x00050a0f04090e03080d02070c01060b#128, 0#32) := by decide +kernel

theorem test_mixColumns :
    run 0x00000022#32 0#128 { State.reset with st := 0xdb135345f20a225c01010101c6c6c6c6#128 } =
      some (0x8e4da1bc9fdc589d01010101c6c6c6c6#128, 0#32) := by decide +kernel

/-- R155: round 10 of 0^128, and index 11 without a key is BAD_OPERAND. -/
theorem test_addRk :
    run 0x00000A23#32 0#128 { readyZero with st := 1#128 } =
      some (0xb4ef5bcb3e92e21123e951cf6f8f188f#128, 0x00000008#32) ∧
    run 0x00000B23#32 0#128 State.reset = some (0#128, 0x00000230#32) ∧
    run 0x00000023#32 0#128 State.reset = some (0#128, 0x00000330#32) := by decide +kernel

/-- E2: round keys 1 and 10 of the source's key. -/
theorem test_keyExpand_keyA :
    (match exec .keyExpand { State.reset with key := keyA } with
      | .next t => some (t.rk[1], t.rk[10], statusWord t.status)
      | .fault _ => none
      | .refused _ => none) =
      some (0xa0fafe1788542cb123a339392a6c7605#128, 0xd014f9a8c9ee2589e13f0cc8b6630ca6#128, 0x00000008#32) := by
  decide +kernel

/-- L2.4, column 3. -/
theorem test_keyExpansion_zero : keyExpansion 0#128 = roundKeysZero := by decide +kernel

/-! ### The cipher (L2.5) -/

theorem test_cipher_zero : cipher 0#128 roundKeysZero = 0x66e94bd4ef8a2c3b884cfa59ca342b2e#128 := by
  decide +kernel

theorem test_cipher_one : cipher (inc ivOne 0) roundKeysZero = 0x58e2fccefa7e3061367f1d57a4e7455a#128 := by
  decide +kernel

theorem test_cipher_two : cipher (inc ivOne 1) roundKeysZero = 0x0388dace60b6a392f328c2b971b2fe78#128 := by
  decide +kernel

/-- L2.6: the carry stays inside bytes 12..15. -/
theorem test_inc :
    inc 0x0000000000000000000000ffffffffff#128 1 = 0x0000000000000000000000ff00000000#128 ∧
    inc 0xcafebabefacedbaddecaf888fffffffe#128 3 = 0xcafebabefacedbaddecaf88800000001#128 := by decide +kernel

/-- G4: the length block of one associated-data and one ciphertext block. -/
theorem test_lenblock : lenblock 1 1 = 0x00000000000000800000000000000080#128 := by decide +kernel

/-! ### The cipher and the chains, one command each -/

/-- L2.5, KEY = 0^128. -/
theorem test_encrypt :
    ∃ t, exec .encrypt readyZero = .next t ∧ t.dout = 0x66e94bd4ef8a2c3b884cfa59ca342b2e#128 :=
  ⟨_, checked_pass (cs := [keyCheck readyZero]) (by simp [keyCheck_eq_none, readyZero]) readyZero _,
    test_cipher_zero⟩

/-- L2.9: ENCRYPT without a key. -/
theorem test_encrypt_noKey : run 0x00000029#32 0#128 State.reset = some (0#128, 0x00000330#32) := by
  decide +kernel

/-- KEY = 0^128 expanded, IV = 1 and a data block. -/
def loaded : State := { readyZero with iv := ivOne, din := 1#128 }

/-- R201, with the keystream of L2.5: block 0 of the chain. -/
theorem test_ctrBase :
    ∃ t, exec (.ctrBase false) loaded = .next t ∧ t.dout = 0x58e2fccefa7e3061367f1d57a4e7455b#128 ∧
      statusWord t.status = 0x00000009#32 ∧ t.kc = Config.keyCommit 0#128 ∧ t.liv = ivOne := by
  have hc : counterModeBlock loaded.iv 0 loaded = 0x58e2fccefa7e3061367f1d57a4e7455b#128 := by
    change 1#128 ^^^ cipher (inc ivOne 0) roundKeysZero = _
    rw [test_cipher_one]; decide
  refine ⟨_, checked_pass
    (cs := [keyCheck loaded, outputCheck false (counterModeBlock loaded.iv 0 loaded) loaded]) ?_ loaded _, hc,
    by decide, rfl, rfl⟩
  simp [keyCheck_eq_none, outputCheck_eq_none, loaded, readyZero]

/-- R202, with the keystream of L2.5: block 1 of the chain; CC folds the ciphertext onto the old CC. -/
theorem test_ctrStep :
    ∃ t, exec (.ctrStep false) ctrOpen = .next t ∧ t.ctr = 1#32 ∧
      t.dout = 0x0388dace60b6a392f328c2b971b2fe78#128 ∧
      t.cc = Config.cipherCommit ctrOpen.cc 0x0388dace60b6a392f328c2b971b2fe78#128 := by
  have hc : counterModeBlock ctrOpen.liv ctrOpen.ctrin.toNat ctrOpen =
      0x0388dace60b6a392f328c2b971b2fe78#128 := by
    change 0#128 ^^^ cipher (inc ivOne 1) roundKeysZero = _
    rw [test_cipher_two]; decide
  refine ⟨_, checked_pass
    (cs := [keyCheck ctrOpen, phaseCheck [.ctr] ctrOpen, ivCheck ctrOpen, commitCheck ctrOpen,
      counterCheck ctrOpen, outputCheck false (counterModeBlock ctrOpen.liv ctrOpen.ctrin.toNat ctrOpen)
      ctrOpen]) ?_ ctrOpen _, rfl, hc, congrArg (Config.cipherCommit ctrOpen.cc) hc⟩
  simp [keyCheck_eq_none, phaseCheck_eq_none, ivCheck_eq_none, commitCheck_eq_none, counterCheck_eq_none,
    outputCheck_eq_none, ctrOpen, readyZero, State.reset]

/-- L2.7: a counter that skips one is COUNTER_MISMATCH. -/
theorem test_ctrStep_counter (s : State) (h : s = { ctrOpen with ctrin := 2#32 }) :
    exec (.ctrStep false) s = .next (failWith .counterMismatch s) := by
  refine checked_fail (cs := [keyCheck s, phaseCheck [.ctr] s, ivCheck s, commitCheck s, counterCheck s,
    outputCheck false (counterModeBlock s.liv s.ctrin.toNat s) s]) ?_ s _
  subst h
  simp [keyCheck, phaseCheck, ivCheck, commitCheck, counterCheck, ctrOpen, readyZero, State.reset]

/-- G1 and G2: H, and MODE GCM_AAD. -/
theorem test_gcmSetup :
    ∃ t, exec .gcmSetup loaded = .next t ∧ t.h = 0x66e94bd4ef8a2c3b884cfa59ca342b2e#128 ∧ t.dout = t.h ∧
      t.tag = 0#128 ∧ statusWord t.status = 0x0000000A#32 := by
  refine ⟨_, checked_pass (cs := [keyCheck loaded]) ?_ loaded _, test_cipher_zero, rfl, rfl, by decide⟩
  simp [keyCheck_eq_none, loaded, readyZero]

/-- The checks of gcm_check pass in the chain of G2. -/
theorem gcmChecks_pass : ∀ c ∈ gcmChecks gcmOpen ++ gcmChecks gcmOne, c = none := by
  simp [gcmChecks, ivCheck_eq_none, commitCheck_eq_none, hCheck_eq_none, gcmOne, gcmOpen, readyZero,
    State.reset, test_cipher_zero]

/-- R224 under the H of G2: the block 0388... is folded as L2.2's "GCM tc2 fold" says. -/
theorem test_gcmAad (s : State) (h : s = { gcmOpen with din := 0x0388dace60b6a392f328c2b971b2fe78#128 }) :
    ∃ t, exec .gcmAad s = .next t ∧ t.tag = 0x5e2ec746917062882c85b0685353deb7#128 ∧ t.acnt = 1#32 ∧
      statusWord t.status = 0x0000000A#32 := by
  refine ⟨_, checked_pass (cs := [keyCheck s, phaseCheck [.gcmAad] s, aadLimitCheck s] ++ gcmChecks s) ?_ s _,
    ?_⟩ <;> subst h
  · simp [keyCheck_eq_none, phaseCheck_eq_none, aadLimitCheck_eq_none, gcmChecks, ivCheck_eq_none,
      commitCheck_eq_none, hCheck_eq_none, gcmOpen, readyZero, State.reset, test_cipher_zero]
  · exact ⟨by decide +kernel, rfl, by decide⟩

/-- P8 step 7: GCM_AAD after GCM_ENC is PHASE. -/
theorem test_gcmAad_phase : exec .gcmAad gcmOne = .next (failWith .phase gcmOne) := by
  unfold exec execGcmAad
  exact checked_fail (by simp [keyCheck, phaseCheck, gcmOne, gcmOpen, readyZero]) gcmOne _

/-- G2: the ciphertext, the accumulator and the count. -/
theorem test_gcmEnc (s : State) (h : s = gcmOpen) :
    ∃ t, exec (.gcmEnc false) s = .next t ∧ t.dout = 0x0388dace60b6a392f328c2b971b2fe78#128 ∧
      t.tag = 0x5e2ec746917062882c85b0685353deb7#128 ∧ t.ccnt = 1#32 ∧
      statusWord t.status = 0x0000000B#32 := by
  have hc : counterModeBlock s.liv (s.ccnt.toNat + 1) s = 0x0388dace60b6a392f328c2b971b2fe78#128 := by
    subst h
    change 0#128 ^^^ cipher (inc ivOne 1) roundKeysZero = _
    rw [test_cipher_two]; decide
  have hf : ghashFold s.h s.tag 0x0388dace60b6a392f328c2b971b2fe78#128 =
      0x5e2ec746917062882c85b0685353deb7#128 := by subst h; decide +kernel
  refine ⟨_, checked_pass
    (cs := [keyCheck s, phaseCheck [.gcmAad, .gcmEnc] s, encLimitCheck s] ++ gcmChecks s ++
      [outputCheck false (counterModeBlock s.liv (s.ccnt.toNat + 1) s) s]) ?_ s _,
    hc, (congrArg (ghashFold s.h s.tag) hc).trans hf, by subst h; rfl, by subst h; decide⟩
  have hg := gcmChecks_pass
  simp only [List.mem_append, or_imp, forall_and] at hg ⊢
  refine ⟨⟨?_, by subst h; exact hg.1⟩, by simp [outputCheck_eq_none]⟩
  subst h
  simp [keyCheck_eq_none, phaseCheck_eq_none, encLimitCheck_eq_none, gcmOpen, readyZero, State.reset]

/-- G2 and P4 step 7: the tag, verified against EXP. -/
theorem test_gcmFinal (s : State) (h : s = { gcmOne with exp := 0xab6e47d42cec13bdf53a67b21257bddf#128 }) :
    ∃ t, exec (.gcmFinal true) s = .next t ∧ t.tag = 0xab6e47d42cec13bdf53a67b21257bddf#128 ∧ t.dout = t.tag ∧
      statusWord t.status = 0x0000000C#32 ∧ t.status.lerr = false := by
  have hm : ghashFold s.h s.tag (lenblock s.acnt.toNat s.ccnt.toNat) ^^^ cipher s.liv s.rk =
      0xab6e47d42cec13bdf53a67b21257bddf#128 := by
    subst h
    change ghashFold gcmOne.h gcmOne.tag (lenblock 0 1) ^^^ cipher (inc ivOne 0) roundKeysZero = _
    rw [test_cipher_one]; decide +kernel
  refine ⟨_, checked_pass
    (cs := [keyCheck s, phaseCheck [.gcmAad, .gcmEnc] s] ++ gcmChecks s ++
      [outputCheck true (ghashFold s.h s.tag (lenblock s.acnt.toNat s.ccnt.toNat) ^^^ cipher s.liv s.rk) s])
    ?_ s _, hm, rfl, by subst h; decide, rfl⟩
  have hg := gcmChecks_pass
  simp only [List.mem_append, or_imp, forall_and] at hg ⊢
  refine ⟨⟨?_, by subst h; exact hg.2⟩, ?_⟩
  · subst h; simp [keyCheck_eq_none, phaseCheck_eq_none, gcmOne, gcmOpen, readyZero]
  · simp only [List.mem_singleton, forall_eq, outputCheck_eq_none, hm, forall_const]
    subst h; rfl

/-! ### Witnesses: a case for the hypotheses of every statement, clause by clause -/

/-- The two hypotheses of every `HasEncoding`: NOP with A = 1, and presented to the core. -/
theorem witness_HasEncoding :
    opField 0x00000100#32 = opField 0x00000000#32 ∧ 0x00000100#32 &&& 0xFFFFFFFF#32 ≠ 0x00000000#32 ∧
    (present 0x00000100#32 0#128 State.reset).host = .transact { cmd := 0x00000100#32, din := 0#128 } :: [] := by
  decide

theorem witness_CommandWordValue : decode 0x01000031#32 = .ok (.ctrStep true) := by decide

theorem witness_EncodeOfDecodedWordIsTheWord : decode 0x00835712#32 = .ok (.gf8Mul 0x57#8 0x83#8) := by decide

theorem witness_IllegalWordsRaiseIllegalCmd :
    (present 0x00000100#32 1#128 State.reset).host = .transact { cmd := 0x00000100#32, din := 1#128 } :: [] ∧
    legalCommand 0x00000100#32 = false := by decide

/-- Both ways to BAD_OPERAND: an operand that names nothing, and a well-formed WR CTRIN with a high byte. -/
theorem witness_BadOperandCauses :
    (Instr.rd 0x0F#8).wellFormed = false ∧ (0x100000000#128 : Block).extractLsb' 32 96 ≠ 0#96 ∧
    (∃ t, exec (.rd 0x0F#8) State.reset = .next t ∧ t.status.lerr = true ∧ t.status.ecode = 2#8) ∧
    (∃ t, exec (.wr 0x04#8) { State.reset with din := 0x100000000#128 } = .next t ∧ t.status.lerr = true ∧
      t.status.ecode = 2#8) :=
  ⟨by decide, by decide, ⟨_, rfl, rfl, rfl⟩, ⟨_, rfl, rfl, rfl⟩⟩

theorem witness_StepRunsTheDecodedCommand :
    (present 0x00000019#32 1#128 State.reset).host = .transact { cmd := 0x00000019#32, din := 1#128 } :: [] ∧
    decode 0x00000019#32 = .ok .gf128Mul := by decide

theorem witness_IdleStepKeepsState : State.reset.host = [] := rfl

/-- A step with an observation. -/
theorem witness_CoreNeverHangs :
    ∃ t, step (present 0x00000000#32 0#128 readyZero) = .next t ∧ (t.dout, statusWord t.status) = (0#128, 8#32) :=
  ⟨_, rfl, by decide⟩

/-- A STATUS in each MODE. -/
theorem witness_StatusWordLayout :
    State.reset.status.mode = .idle ∧ ctrOpen.status.mode = .ctr ∧ gcmOpen.status.mode = .gcmAad ∧
    gcmOne.status.mode = .gcmEnc ∧ ({ gcmOne.status with mode := .gcmDone } : Status).mode = .gcmDone ∧
    (failedWith 4 gcmOne).status.mode = .failed ∧ statusWord (failedWith 4 gcmOne).status = 0x0000043D#32 := by
  decide

/-- A reset with a command in flight, and one without. -/
theorem witness_ResetEventGivesResetState :
    ({ ctrOpen with host := [.reset (some { cmd := 0x31#32, din := 1#128 }), .reset none] } : State).host =
      .reset (some { cmd := 0x31#32, din := 1#128 }) :: [.reset none] ∧
    ({ ctrOpen with host := [.reset none] } : State).host = .reset none :: [] := ⟨rfl, rfl⟩

/-- The unassigned numbers, at both ends of each gap, and their assigned neighbours. -/
theorem witness_RdResult :
    ((0x0F#8 : Byte) = 0x0F#8 ∨ 0x1B ≤ (0x0F#8 : Byte).toNat) ∧
    ((0x1B#8 : Byte) = 0x0F#8 ∨ 0x1B ≤ (0x1B#8 : Byte).toNat) ∧
    ((0xFF#8 : Byte) = 0x0F#8 ∨ 0x1B ≤ (0xFF#8 : Byte).toNat) ∧
    ¬ ((0x0E#8 : Byte) = 0x0F#8 ∨ 0x1B ≤ (0x0E#8 : Byte).toNat) ∧
    ¬ ((0x10#8 : Byte) = 0x0F#8 ∨ 0x1B ≤ (0x10#8 : Byte).toNat) ∧
    ¬ ((0x1A#8 : Byte) = 0x0F#8 ∨ 0x1B ≤ (0x1A#8 : Byte).toNat) ∧
    BitVec.ofNat 8 (0x10 + (10 : Fin 11).val) = 0x1A#8 := by decide

/-- The largest CTRIN, the smallest block that is none, and the first number WR may not write. -/
theorem witness_WrResult :
    (0xFFFFFFFF#128 : Block).extractLsb' 32 96 = 0#96 ∧
    (0x100000000#128 : Block).extractLsb' 32 96 ≠ 0#96 ∧
    0x04 < (0x05#8 : Byte).toNat ∧ ¬ 0x04 < (0x04#8 : Byte).toNat := by decide

/-- A nonzero byte and its inverse (L2.1), and the two sides of the reduction bound. -/
theorem witness_InverseIsTheUniqueInverse : (0x53#8 : Byte) ≠ 0#8 ∧ mult 0x53#8 0xCA#8 = 1#8 := by decide +kernel

theorem witness_Gf8FieldLaws : (0x01#8 : Byte) ≠ 0#8 ∧ (0xFF#8 : Byte) ≠ 0#8 := by decide

theorem witness_AffineBitFormula : 7 < 8 := by decide

theorem witness_RoundTransformsByElement : 15 < 16 ∧ 3 < 4 := by decide

theorem witness_MixColumnsByMatrix : (3 : Nat) < 4 ∧ (0 : Nat) < 4 := by decide

/-- ADDRK at the last round index, at the first byte that is none, and without a key. -/
theorem witness_AddRkResult :
    readyZero.status.kvalid = true ∧ BitVec.ofNat 8 (10 : Fin 11).val = 10#8 ∧
    10 < (11#8 : Byte).toNat ∧ (10#8 : Byte).toNat ≤ 10 ∧ State.reset.status.kvalid = false := by decide

theorem witness_KeyExpansionRecurrence :
    9 < 10 ∧ 3 < 4 ∧ (4 ≤ 4 ∧ 4 < 44) ∧ (4 ≤ 43 ∧ 43 < 44) := by decide

theorem witness_CipherRounds : 1 ≤ (9 : Fin 11).val ∧ (9 : Fin 11).val ≤ 9 := by decide

theorem witness_EncryptResult : readyZero.status.kvalid = true ∧ State.reset.status.kvalid = false := ⟨rfl, rfl⟩

theorem witness_CounterAndLengthBlocks : 4294967295 < 2 ^ 32 ∧ 11 < 12 := by decide

/-! The two checked chains. `x ^^^ 1` is a value that is not `x`, whatever `x` is. -/

/-- CTR_BASE without V, with V and the right EXP, without a key, and with V and a wrong EXP. -/
theorem witness_CtrBaseResult :
    (loaded.status.kvalid = true ∧ (false = true → (0#128 : Block) = loaded.exp)) ∧
    (∃ s : State, s.status.kvalid = true ∧ (true = true → s.din ^^^ cipher (inc s.iv 0) s.rk = s.exp)) ∧
    State.reset.status.kvalid = false ∧
    ∃ s : State, s.status.kvalid = true ∧ s.din ^^^ cipher (inc s.iv 0) s.rk ≠ s.exp :=
  ⟨⟨rfl, nofun⟩,
    ⟨{ loaded with exp := loaded.din ^^^ cipher (inc loaded.iv 0) loaded.rk }, rfl, fun _ => rfl⟩, rfl,
    ⟨{ loaded with exp := (loaded.din ^^^ cipher (inc loaded.iv 0) loaded.rk) ^^^ 1#128 }, rfl, ne_flip _⟩⟩

/-- CTR_STEP without V, and with V and the right EXP. -/
theorem witness_CtrStepResult_completes :
    (ctrOpen.status.kvalid = true ∧ ctrOpen.status.mode = .ctr ∧ ctrOpen.iv = ctrOpen.liv ∧
      Config.keyCommit ctrOpen.key = ctrOpen.kc ∧ ctrOpen.ctrin.toNat = ctrOpen.ctr.toNat + 1) ∧
    ∃ s : State, s.status.kvalid = true ∧ s.status.mode = .ctr ∧ s.iv = s.liv ∧ Config.keyCommit s.key = s.kc ∧
      s.ctrin.toNat = s.ctr.toNat + 1 ∧ s.din ^^^ cipher (inc s.liv s.ctrin.toNat) s.rk = s.exp :=
  ⟨⟨rfl, rfl, rfl, rfl, rfl⟩,
    ⟨{ ctrOpen with exp := ctrOpen.din ^^^ cipher (inc ctrOpen.liv ctrOpen.ctrin.toNat) ctrOpen.rk },
      rfl, rfl, rfl, rfl, rfl, rfl⟩⟩

/-- CTR_STEP's six failures; the counter at its largest value among them, where CTR + 1 is no 32-bit value. -/
theorem witness_CtrStepResult_fails :
    State.reset.status.kvalid = false ∧
    (readyZero.status.kvalid = true ∧ readyZero.status.mode ≠ .ctr) ∧
    (∃ s : State, s.status.kvalid = true ∧ s.status.mode = .ctr ∧ s.iv ≠ s.liv) ∧
    (∃ s : State, s.status.kvalid = true ∧ s.status.mode = .ctr ∧ s.iv = s.liv ∧
      Config.keyCommit s.key ≠ s.kc) ∧
    (∃ s : State, s.status.kvalid = true ∧ s.status.mode = .ctr ∧ s.iv = s.liv ∧
      Config.keyCommit s.key = s.kc ∧ s.ctr = 0xFFFFFFFF#32 ∧ s.ctrin = s.ctr + 1 ∧
      s.ctrin.toNat ≠ s.ctr.toNat + 1) ∧
    ∃ s : State, s.status.kvalid = true ∧ s.status.mode = .ctr ∧ s.iv = s.liv ∧ Config.keyCommit s.key = s.kc ∧
      s.ctrin.toNat = s.ctr.toNat + 1 ∧ s.din ^^^ cipher (inc s.liv s.ctrin.toNat) s.rk ≠ s.exp :=
  ⟨rfl, ⟨rfl, by decide⟩, ⟨{ ctrOpen with iv := 2#128 }, rfl, rfl, by decide⟩,
    ⟨{ ctrOpen with kc := Config.keyCommit 0#128 ^^^ 1#128 }, rfl, rfl, rfl, ne_flip _⟩,
    ⟨{ ctrOpen with ctr := 0xFFFFFFFF#32, ctrin := 0#32 }, rfl, rfl, rfl, rfl, rfl, by decide, by decide⟩,
    ⟨{ ctrOpen with
        exp := (ctrOpen.din ^^^ cipher (inc ctrOpen.liv ctrOpen.ctrin.toNat) ctrOpen.rk) ^^^ 1#128 },
      rfl, rfl, rfl, rfl, rfl, ne_flip _⟩⟩

/-- An open CTR chain with one block, and each of the three ways a step keeps MODE = CTR: an idle step, the
CTR_STEP of `test_ctrStep`, a CTR_BASE. -/
theorem witness_CtrChainRecordKept :
    CtrRecord ivOne 0#128 [0x58e2fccefa7e3061367f1d57a4e7455a#128] ctrOpen ∧
    step ctrOpen = .next ctrOpen ∧ ctrOpen.status.mode = .ctr :=
  ⟨⟨rfl, rfl, rfl, rfl, rfl⟩, rfl, rfl⟩

/-- The chain's key changed: before KEY_EXPAND, after it. -/
theorem witness_CtrKeyChangeDetected :
    (∃ s : State, s.status.mode = .ctr ∧ s.kc = Config.keyCommit 0#128 ∧ s.iv = s.liv ∧
      s.status.kvalid = false) ∧
    ∃ s : State, s.status.mode = .ctr ∧ s.kc = Config.keyCommit 0#128 ∧ s.iv = s.liv ∧ s.status.kvalid = true :=
  ⟨⟨{ ctrOpen with key := keyA, status := { ctrOpen.status with kvalid := false } }, rfl, rfl, rfl, rfl⟩,
    ⟨{ ctrOpen with key := keyA }, rfl, rfl, rfl, rfl⟩⟩

theorem witness_GcmSetupResult : loaded.status.kvalid = true ∧ State.reset.status.kvalid = false := ⟨rfl, rfl⟩

/-- GCM_AAD below its bound, and each failure; ACNT at 2^32 - 2 and 2^32 - 1. -/
theorem witness_GcmAadResult :
    (gcmOpen.status.kvalid = true ∧ gcmOpen.status.mode = .gcmAad ∧ gcmOpen.iv = gcmOpen.liv ∧
      Config.keyCommit gcmOpen.key = gcmOpen.kc ∧ cipher 0#128 gcmOpen.rk = gcmOpen.h) ∧
    (0xFFFFFFFE#32 : Word).toNat ≠ 4294967295 ∧ (0xFFFFFFFF#32 : Word).toNat = 4294967295 ∧
    gcmOne.status.mode ≠ .gcmAad ∧
    (∃ s : State, s.status.kvalid = true ∧ s.status.mode = .gcmAad ∧ s.acnt.toNat ≠ 4294967295 ∧ s.iv ≠ s.liv) ∧
    (∃ s : State, s.status.kvalid = true ∧ s.status.mode = .gcmAad ∧ s.acnt.toNat ≠ 4294967295 ∧ s.iv = s.liv ∧
      Config.keyCommit s.key ≠ s.kc) ∧
    ∃ s : State, s.status.kvalid = true ∧ s.status.mode = .gcmAad ∧ s.acnt.toNat ≠ 4294967295 ∧ s.iv = s.liv ∧
      Config.keyCommit s.key = s.kc ∧ cipher 0#128 s.rk ≠ s.h :=
  ⟨⟨rfl, rfl, rfl, rfl, test_cipher_zero⟩, by decide, by decide, by decide,
    ⟨{ gcmOpen with iv := 2#128 }, rfl, rfl, by decide, by decide⟩,
    ⟨{ gcmOpen with kc := Config.keyCommit 0#128 ^^^ 1#128 }, rfl, rfl, by decide, rfl, ne_flip _⟩,
    ⟨{ gcmOpen with h := cipher 0#128 gcmOpen.rk ^^^ 1#128 }, rfl, rfl, by decide, rfl, rfl, ne_flip _⟩⟩

/-- GCM_ENC in both of its modes, at the last count it accepts and the first it refuses, and with V. -/
theorem witness_GcmEncResult :
    (gcmOpen.status.mode = .gcmAad ∨ gcmOpen.status.mode = .gcmEnc) ∧
    (gcmOne.status.kvalid = true ∧ (gcmOne.status.mode = .gcmAad ∨ gcmOne.status.mode = .gcmEnc) ∧
      gcmOne.ccnt.toNat < 4294967294 ∧ gcmOne.iv = gcmOne.liv ∧ Config.keyCommit gcmOne.key = gcmOne.kc ∧
      cipher 0#128 gcmOne.rk = gcmOne.h) ∧
    (0xFFFFFFFD#32 : Word).toNat < 4294967294 ∧ 4294967294 ≤ (0xFFFFFFFE#32 : Word).toNat ∧
    (ctrOpen.status.mode ≠ .gcmAad ∧ ctrOpen.status.mode ≠ .gcmEnc) ∧
    (∃ s : State, s.status.kvalid = true ∧ s.status.mode = .gcmEnc ∧ s.ccnt.toNat < 4294967294 ∧
      s.iv ≠ s.liv) ∧
    (∃ s : State, s.status.kvalid = true ∧ s.status.mode = .gcmEnc ∧ s.ccnt.toNat < 4294967294 ∧ s.iv = s.liv ∧
      Config.keyCommit s.key ≠ s.kc) ∧
    (∃ s : State, s.status.kvalid = true ∧ s.status.mode = .gcmEnc ∧ s.ccnt.toNat < 4294967294 ∧ s.iv = s.liv ∧
      Config.keyCommit s.key = s.kc ∧ cipher 0#128 s.rk ≠ s.h) ∧
    (∃ s : State, s.status.kvalid = true ∧ s.status.mode = .gcmEnc ∧ s.ccnt.toNat < 4294967294 ∧ s.iv = s.liv ∧
      Config.keyCommit s.key = s.kc ∧ cipher 0#128 s.rk = s.h ∧
      s.din ^^^ cipher (inc s.liv (s.ccnt.toNat + 1)) s.rk = s.exp) ∧
    ∃ s : State, s.status.kvalid = true ∧ s.status.mode = .gcmEnc ∧ s.ccnt.toNat < 4294967294 ∧ s.iv = s.liv ∧
      Config.keyCommit s.key = s.kc ∧ cipher 0#128 s.rk = s.h ∧
      s.din ^^^ cipher (inc s.liv (s.ccnt.toNat + 1)) s.rk ≠ s.exp :=
  ⟨.inl rfl, ⟨rfl, .inr rfl, by decide, rfl, rfl, test_cipher_zero⟩, by decide, by decide, by decide,
    ⟨{ gcmOne with iv := 2#128 }, rfl, rfl, by decide, by decide⟩,
    ⟨{ gcmOne with kc := Config.keyCommit 0#128 ^^^ 1#128 }, rfl, rfl, by decide, rfl, ne_flip _⟩,
    ⟨{ gcmOne with h := cipher 0#128 gcmOne.rk ^^^ 1#128 }, rfl, rfl, by decide, rfl, rfl, ne_flip _⟩,
    ⟨{ gcmOne with exp := gcmOne.din ^^^ cipher (inc gcmOne.liv (gcmOne.ccnt.toNat + 1)) gcmOne.rk },
      rfl, rfl, by decide, rfl, rfl, test_cipher_zero, rfl⟩,
    ⟨{ gcmOne with exp := (gcmOne.din ^^^ cipher (inc gcmOne.liv (gcmOne.ccnt.toNat + 1)) gcmOne.rk) ^^^ 1#128 },
      rfl, rfl, by decide, rfl, rfl, test_cipher_zero, ne_flip _⟩⟩

/-- GCM_FINAL without V in mode GCM_ENC, with V in mode GCM_AAD, and each failure. GCM_ENC's witnesses of
IV, KEY and H mismatches (`witness_GcmEncResult`) are also GCM_FINAL's. -/
theorem witness_GcmFinalResult :
    (gcmOne.status.kvalid = true ∧ gcmOne.status.mode = .gcmEnc ∧ gcmOne.iv = gcmOne.liv ∧
      Config.keyCommit gcmOne.key = gcmOne.kc ∧ cipher 0#128 gcmOne.rk = gcmOne.h) ∧
    (State.reset.status.kvalid = false ∧ ctrOpen.status.mode ≠ .gcmAad ∧ ctrOpen.status.mode ≠ .gcmEnc) ∧
    (∃ s : State, s.status.kvalid = true ∧ s.status.mode = .gcmAad ∧ s.iv = s.liv ∧
      Config.keyCommit s.key = s.kc ∧ cipher 0#128 s.rk = s.h ∧
      Machine.gf128Mul (s.tag ^^^ lenblock s.acnt.toNat s.ccnt.toNat) s.h ^^^ cipher s.liv s.rk = s.exp) ∧
    ∃ s : State, s.status.kvalid = true ∧ s.status.mode = .gcmEnc ∧ s.iv = s.liv ∧
      Config.keyCommit s.key = s.kc ∧ cipher 0#128 s.rk = s.h ∧
      Machine.gf128Mul (s.tag ^^^ lenblock s.acnt.toNat s.ccnt.toNat) s.h ^^^ cipher s.liv s.rk ≠ s.exp :=
  ⟨⟨rfl, rfl, rfl, rfl, test_cipher_zero⟩, ⟨rfl, by decide, by decide⟩,
    ⟨{ gcmOpen with
        exp := Machine.gf128Mul (gcmOpen.tag ^^^ lenblock gcmOpen.acnt.toNat gcmOpen.ccnt.toNat) gcmOpen.h ^^^
          cipher gcmOpen.liv gcmOpen.rk },
      rfl, rfl, rfl, rfl, test_cipher_zero, rfl⟩,
    ⟨{ gcmOne with
        exp := (Machine.gf128Mul (gcmOne.tag ^^^ lenblock gcmOne.acnt.toNat gcmOne.ccnt.toNat) gcmOne.h ^^^
          cipher gcmOne.liv gcmOne.rk) ^^^ 1#128 },
      rfl, rfl, rfl, rfl, test_cipher_zero, ne_flip _⟩⟩

/-- The chain of G2 with no block, and with the one GCM_ENC folds; each step kept or extended by one. -/
theorem witness_GcmChainRecordKept :
    GcmRecord ivOne 0#128 0x66e94bd4ef8a2c3b884cfa59ca342b2e#128 [] [] gcmOpen ∧
    GcmRecord ivOne 0#128 0x66e94bd4ef8a2c3b884cfa59ca342b2e#128 []
      [0x0388dace60b6a392f328c2b971b2fe78#128] gcmOne ∧
    step gcmOpen = .next gcmOpen ∧ (gcmOpen.status.mode = .gcmAad ∨ gcmOpen.status.mode = .gcmEnc) ∧
    ∃ (s t : State), exec (.gcmFinal true) s = .next t ∧ t.status.lerr = false ∧
      GcmRecord ivOne 0#128 0x66e94bd4ef8a2c3b884cfa59ca342b2e#128 []
        [0x0388dace60b6a392f328c2b971b2fe78#128] s := by
  have h1 : GcmRecord ivOne 0#128 0x66e94bd4ef8a2c3b884cfa59ca342b2e#128 []
      [0x0388dace60b6a392f328c2b971b2fe78#128] gcmOne :=
    ⟨.inr ⟨rfl, by simp⟩, rfl, rfl, rfl, rfl, rfl, by decide +kernel⟩
  refine ⟨⟨.inl ⟨rfl, rfl⟩, rfl, rfl, rfl, rfl, rfl, rfl⟩, h1, rfl, .inl rfl, ?_⟩
  obtain ⟨t, ht, _, _, _, hl⟩ := test_gcmFinal _ rfl
  exact ⟨_, t, ht, hl, h1⟩

/-- A failing command, and one that completes. -/
theorem witness_FailureWritesOnlyStatus :
    ∃ t, exec .encrypt State.reset = .next t ∧ t.status.lerr = true := ⟨_, rfl, rfl⟩

theorem witness_SuccessKeepsErrorRecord :
    ∃ t, exec .subBytes { State.reset with status := { State.reset.status with serr := true, ecode := 3#8 } } =
      .next t ∧ t.status.lerr = false ∧ Instr.subBytes ≠ .clrerr := ⟨_, rfl, rfl, by decide⟩

/-- A success, a failure below 4, a failure from 4 on (PHASE, in a mode that does not accept the command), and
a reset. -/
theorem witness_ModeTransitions :
    (∃ t, exec .shiftRows State.reset = .next t ∧ t.status.lerr = false) ∧
    (∃ t, exec (.addRk 11#8) State.reset = .next t ∧ t.status.lerr = true ∧ t.status.ecode.toNat < 4) ∧
    (∃ t, exec .gcmAad gcmOne = .next t ∧ t.status.lerr = true ∧ 4 ≤ t.status.ecode.toNat) ∧
    (gcmOne.status.kvalid = true ∧ acceptedIn .gcmAad gcmOne.status.mode = false) ∧
    ∃ t, step { gcmOne with host := [.reset none] } = .next t :=
  ⟨⟨_, rfl, rfl⟩, ⟨_, rfl, rfl, by decide⟩, ⟨_, test_gcmAad_phase, rfl, by decide⟩, by decide, ⟨_, rfl⟩⟩

/-- The commands change RK only by KEY_EXPAND; here it does. -/
theorem witness_NoCommandResets :
    (∃ t, exec .keyExpand State.reset = .next t ∧ t.rk ≠ State.reset.rk) ∧
    ∃ t, exec .nop State.reset = .next t ∧ t.status.mode = .idle := by
  refine ⟨⟨_, rfl, ?_⟩, ⟨_, rfl, rfl⟩⟩
  change keyExpansion 0#128 ≠ _
  rw [test_keyExpansion_zero]
  decide

/-- Valid keys and a step, KEY_EXPAND setting KVALID, and WR KEY changing KEY. -/
theorem witness_KeysValidKept :
    (KeysValid readyZero ∧ readyZero.status.kvalid = true ∧ step readyZero = .next readyZero) ∧
    (∃ t, exec .keyExpand State.reset = .next t ∧ State.reset.status.kvalid = false ∧ t.status.kvalid = true) ∧
    ∃ (s t : State), exec (.wr 0x00#8) s = .next t ∧ t.key ≠ s.key :=
  ⟨⟨fun _ => test_keyExpansion_zero.symm, rfl, rfl⟩, ⟨_, rfl, rfl, rfl⟩,
    ⟨{ readyZero with din := keyA }, _, rfl, by decide⟩⟩

/-- A state with a recorded failure, and one step from it. -/
theorem witness_ErrorRecordKept :
    ErrorRecordConsistent (failedWith 10 ctrOpen) ∧
    step (failedWith 10 ctrOpen) = .next (failedWith 10 ctrOpen) :=
  ⟨⟨fun _ => rfl, by decide, by decide⟩, rfl⟩

/-- The chain at its last count. -/
theorem witness_CipherCountKept :
    CipherCountInRange { gcmOne with ccnt := 0xFFFFFFFE#32 } ∧ CipherCountInRange gcmOpen ∧
    step gcmOpen = .next gcmOpen :=
  ⟨⟨by decide, by decide, by decide⟩, ⟨by decide, by decide, by decide⟩, rfl⟩

/-- Every register that a host, round or key command writes, written. -/
theorem witness_RegisterWriters_plain :
    (∃ (s t : State), exec (.wr 0x00#8) s = .next t ∧ t.key ≠ s.key) ∧
    (∃ (s t : State), exec (.wr 0x01#8) s = .next t ∧ t.iv ≠ s.iv) ∧
    (∃ (s t : State), exec (.wr 0x02#8) s = .next t ∧ t.st ≠ s.st) ∧
    (∃ (s t : State), exec (.wr 0x03#8) s = .next t ∧ t.exp ≠ s.exp) ∧
    (∃ (s t : State), exec (.wr 0x04#8) s = .next t ∧ t.ctrin ≠ s.ctrin) ∧
    (∃ (s t : State), exec .gf128Add s = .next t ∧ t.dout ≠ s.dout) ∧
    ∃ (s t : State), exec .keyExpand s = .next t ∧ t.rk ≠ s.rk :=
  ⟨⟨{ State.reset with din := 1#128 }, _, rfl, by decide⟩, ⟨{ State.reset with din := 1#128 }, _, rfl, by decide⟩,
    ⟨{ State.reset with din := 1#128 }, _, rfl, by decide⟩, ⟨{ State.reset with din := 1#128 }, _, rfl, by decide⟩,
    ⟨{ State.reset with din := 1#128 }, _, rfl, by decide⟩, ⟨{ State.reset with din := 1#128 }, _, rfl, by decide⟩,
    witness_NoCommandResets.1.elim fun t h => ⟨_, t, h⟩⟩

/-- The registers of the chains, written by the command that starts or extends one. KC and CC differ from
what the command writes in their last bit, whatever the commitments are. -/
theorem witness_RegisterWriters_chains :
    (∃ (s t : State), exec .gcmSetup s = .next t ∧ t.liv ≠ s.liv ∧ t.kc ≠ s.kc ∧ t.h ≠ s.h) ∧
    (∃ (s t : State), exec (.ctrBase false) s = .next t ∧ t.cc ≠ s.cc) ∧
    (∃ (s t : State), exec (.ctrStep false) s = .next t ∧ t.ctr ≠ s.ctr) ∧
    (∃ (s t : State), exec .gcmAad s = .next t ∧ t.acnt ≠ s.acnt ∧ t.tag ≠ s.tag) ∧
    ∃ (s t : State), exec (.gcmEnc false) s = .next t ∧ t.ccnt ≠ s.ccnt := by
  refine ⟨?_, ?_, ?_, ?_, ?_⟩
  · let s : State := { loaded with kc := Config.keyCommit 0#128 ^^^ 1#128 }
    refine ⟨s, _, checked_pass (cs := [keyCheck s]) (by simp [keyCheck_eq_none, s, loaded, readyZero]) s _,
      by decide, ne_flip _, ?_⟩
    change cipher 0#128 roundKeysZero ≠ 0#128
    rw [test_cipher_zero]; decide
  · let c := counterModeBlock loaded.iv 0 loaded
    let s : State := { loaded with cc := Config.cipherCommit Config.ccInit c ^^^ 1#128 }
    exact ⟨s, _, checked_pass (cs := [keyCheck s, outputCheck false (counterModeBlock s.iv 0 s) s])
      (by simp [keyCheck_eq_none, outputCheck_eq_none, s, loaded, readyZero]) s _, ne_flip _⟩
  · obtain ⟨t, ht, hc, _⟩ := test_ctrStep
    exact ⟨ctrOpen, t, ht, by rw [hc]; decide⟩
  · obtain ⟨t, ht, hT, hA, _⟩ := test_gcmAad _ rfl
    exact ⟨_, t, ht, by rw [hA]; decide, by rw [hT]; decide⟩
  · obtain ⟨t, ht, _, _, hC, _⟩ := test_gcmEnc _ rfl
    exact ⟨_, t, ht, by rw [hC]; decide⟩

/-- Commands without a use of din, of EXP, of CTRIN. -/
theorem witness_OperandReaders :
    usesDin .gcmSetup = false ∧ touchesExp (.gcmFinal false) = false ∧ touchesCtrin (.ctrBase true) = false := by
  decide

/-- A WR KEY over valid keys, a command between it and KEY_EXPAND, and a key-using one; ADDRK at both sides of
its bound. -/
theorem witness_KeyMustBeReexpanded :
    (∃ t, exec (.wr 0x00#8) readyZero = .next t) ∧
    (∃ (s t : State), s.status.kvalid = false ∧ Instr.gf128Mul ≠ .keyExpand ∧ exec .gf128Mul s = .next t) ∧
    (∃ s : State, s.status.kvalid = false ∧ s.rk = roundKeysZero ∧ needsKey .gcmAad = true) ∧
    needsKey (.addRk 10#8) = true ∧ needsKey (.addRk 11#8) = false :=
  ⟨⟨_, rfl⟩, ⟨State.reset, _, rfl, by decide, rfl⟩,
    ⟨{ readyZero with status := { readyZero.status with kvalid := false } }, rfl, rfl, rfl⟩, by decide⟩

/-- A repeated command that completes, one that fails, RD STATUS, and a round transform. -/
theorem witness_RepeatedCommandsAreIdempotent :
    (∃ t, exec .gf128Mul readyZero = .next t) ∧ (∃ t, exec .encrypt State.reset = .next t) ∧
    (∃ t, exec (.rd 0x06#8) readyZero = .next t ∧ readyZero.status.lerr = false) ∧
    ∃ t, exec .mixColumns readyZero = .next t := ⟨⟨_, rfl⟩, ⟨_, rfl⟩, ⟨_, rfl, rfl⟩, ⟨_, rfl⟩⟩

theorem witness_PseudoInstructionExpansions :
    ({ gcmOne with host := (setKey keyA).map .transact ++ [.reset none] } : State).host =
      (setKey keyA).map .transact ++ [.reset none] := rfl

end Sys2Proof.Tests
end

