-- ==== Sys2Proof/Proofs/BlockLayout.lean ====
section
/-! PROOFS. The number of a block from its bytes, and the views of a block against each other (R12, R13,
R63 to R65). -/

namespace Sys2Proof.Machine

/-- Byte `k` is a base-256 digit of the block's number, counted from the most significant. -/
theorem toNat_byteAt (b : Block) (k : Nat) :
    (byteAt b k).toNat = b.toNat / 2 ^ (120 - 8 * k) % 2 ^ 8 := by
  rw [byteAt, BitVec.extractLsb'_toNat, Nat.shiftRight_eq_div_pow]

/-- A block cut before byte `k` starts with that byte. -/
theorem toNat_mod_eq_byteAt_add (b : Block) {k : Nat} (h : k < 16) :
    b.toNat % 2 ^ (8 * (16 - k)) =
      (byteAt b k).toNat * 2 ^ (8 * (15 - k)) + b.toNat % 2 ^ (8 * (15 - k)) := by
  have hexp : 8 * (16 - k) = 8 * (15 - k) + 8 := by omega
  have hplace : 120 - 8 * k = 8 * (15 - k) := by omega
  rw [toNat_byteAt, hplace, hexp, Nat.pow_add, Nat.mod_mul]
  ring

/-- The number of a block is the number of its first `n` bytes in their places, and of what follows them. -/
theorem toNat_eq_sum_byteAt_add (b : Block) {n : Nat} (h : n ≤ 16) :
    b.toNat = ((List.range n).map fun k => (byteAt b k).toNat * 2 ^ (8 * (15 - k))).sum +
      b.toNat % 2 ^ (8 * (16 - n)) := by
  induction n with
  | zero => simpa using (Nat.mod_eq_of_lt b.isLt).symm
  | succ n ih =>
    have hcut := toNat_mod_eq_byteAt_add b (k := n) (by omega)
    have hexp : 16 - (n + 1) = 15 - n := by omega
    have ih := ih (by omega)
    rw [List.range_succ, List.map_append, List.sum_append, hexp]
    simp only [List.map_singleton, List.sum_singleton]
    omega

/-- R13: `int128`, byte 0 most significant. -/
theorem int128_eq_sum_byteAt (b : Block) :
    int128 b = ((List.range 16).map fun k => (byteAt b k).toNat * 2 ^ (8 * (15 - k))).sum := by
  simpa [int128, Nat.mod_one] using toNat_eq_sum_byteAt_add b (n := 16) le_rfl

/-- R13, R67: the two halves of a block's number. -/
theorem int128_eq_top64_bottom64 (b : Block) : int128 b = top64 b * 2 ^ 64 + bottom64 b := by
  have hlt := b.isLt
  simp only [int128, top64, bottom64, BitVec.extractLsb'_toNat, Nat.shiftRight_eq_div_pow]
  omega

/-- R13: `blk128` inverts `int128`. -/
theorem blk128_int128 (b : Block) : blk128 (int128 b) = b := by simp [blk128, int128]

/-- R12: byte `r` of column `c` is element `(r, c)`. -/
theorem wordByte_col (b : Block) {r c : Nat} (hr : r < 4) (hc : c < 4) :
    wordByte (col b c) r = elem b r c := by
  apply BitVec.eq_of_getLsbD_eq
  intro i hi
  have hin : 24 - 8 * r + i < 32 := by omega
  have hpos : 96 - 32 * c + (24 - 8 * r + i) = 120 - 8 * (r + 4 * c) + i := by omega
  simp [wordByte, col, elem, byteAt, hi, hin, hpos]

/-- R65: the 128-bit form of a 32-bit value has its number. -/
theorem int128_wordResult (v : Word) : int128 (wordResult v) = v.toNat :=
  (BitVec.toNat_append 0#96 v).trans (by simp)

end Sys2Proof.Machine

open Sys2Proof.Machine

/-- Settles O45, by splitting off the bytes of a block's number one by one from the most significant. -/
theorem blockLayout : Obligations.BlockLayout :=
  ⟨int128_eq_sum_byteAt, fun b => ⟨int128_eq_top64_bottom64 b, blk128_int128 b⟩,
    fun b _ _ hr hc => ⟨rfl, wordByte_col b hr hc⟩, int128_wordResult⟩

end

