-- ==== Sys2Proof/Proofs/CommandShape.lean ====
section
/-! PROOFS. The one shape of all 24 commands: an operand check, the checks that read the state, and the
registers written if all pass (R16, R272, R273, R275). What a command or a step can do follows from it. -/

namespace Sys2Proof.Machine

/-- The operand check, before all others: the operand names something, and WR CTRIN has bytes 0..11 zero
(R155, R252, R253). -/
def operandCheck (i : Instr) (s : State) : Option ErrorCode :=
  failIf (!i.wellFormed || decide (i = .wr 0x04#8 ∧ high96 s.din ≠ 0#96)) .badOperand

/-- The checks of a command after its operand check, in the order of R275. -/
def stateChecks : Instr → State → List (Option ErrorCode)
  | .addRk _, s | .encrypt, s | .gcmSetup, s => [keyCheck s]
  | .ctrBase v, s => [keyCheck s, outputCheck v (counterModeBlock s.iv 0 s) s]
  | .ctrStep v, s =>
    [keyCheck s, phaseCheck [.ctr] s, ivCheck s, commitCheck s, counterCheck s,
      outputCheck v (counterModeBlock s.liv s.ctrin.toNat s) s]
  | .gcmAad, s => [keyCheck s, phaseCheck [.gcmAad] s, aadLimitCheck s] ++ gcmChecks s
  | .gcmEnc v, s =>
    [keyCheck s, phaseCheck [.gcmAad, .gcmEnc] s, encLimitCheck s] ++ gcmChecks s ++
      [outputCheck v (counterModeBlock s.liv (s.ccnt.toNat + 1) s) s]
  | .gcmFinal v, s =>
    [keyCheck s, phaseCheck [.gcmAad, .gcmEnc] s] ++ gcmChecks s ++
      [outputCheck v (ghashFold s.h s.tag (lenblock s.acnt.toNat s.ccnt.toNat) ^^^ cipher s.liv s.rk) s]
  | _, _ => []

/-- The value RD puts in DOUT if its number names a register (R252). -/
def rdValue (n : Byte) (s : State) : Block := (regOfNumber n).elim 0 (readReg · s)

/-- The state a command writes if its checks pass, before `complete` clears LERR. (Where the operand check
does not pass, the state given here is never used.) -/
def commandWrites : Instr → State → State
  | .nop, s => s
  | .clrerr, s => { s with status := clearErrorStatus s.status }
  | .rd n, s => writeDout (rdValue n s) s
  | .wr n, s =>
    if n = 0x00#8 then { s with key := s.din, status := { s.status with kvalid := false } }
    else if n = 0x01#8 then { s with iv := s.din }
    else if n = 0x02#8 then { s with st := s.din }
    else if n = 0x03#8 then { s with exp := s.din }
    else if n = 0x04#8 then { s with ctrin := low32 s.din }
    else s
  | .gf8Add a b, s => writeDout (byteResult (gfAdd a b)) s
  | .gf8Xtime a, s => writeDout (byteResult (xtime a)) s
  | .gf8Mul a b, s => writeDout (byteResult (mult a b)) s
  | .gf8Inv a, s => writeDout (byteResult (inverse a)) s
  | .gf8Affine a, s => writeDout (byteResult (affine a)) s
  | .gf8Sbox a, s => writeDout (byteResult (sbox a)) s
  | .gf128Add, s => writeDout (gf128Add s.st s.din) s
  | .gf128Mul, s => writeDout (gf128Mul s.st s.din) s
  | .subBytes, s => writeSt (subBytes s.st) s
  | .shiftRows, s => writeSt (shiftRows s.st) s
  | .mixColumns, s => writeSt (mixColumns s.st) s
  | .addRk n, s => writeSt ((roundIndex n).elim 0 (addRoundKey s.st s.rk[·])) s
  | .keyExpand, s => { s with rk := keyExpansion s.key, status := { s.status with kvalid := true } }
  | .encrypt, s => writeDout (cipher s.din s.rk) s
  | .ctrBase _, s =>
    { s with
      liv := s.iv
      kc := Config.keyCommit s.key
      ctr := 0#32
      cc := Config.cipherCommit Config.ccInit (counterModeBlock s.iv 0 s)
      status := { s.status with mode := .ctr }
      dout := counterModeBlock s.iv 0 s }
  | .ctrStep _, s =>
    { s with
      ctr := s.ctrin
      cc := Config.cipherCommit s.cc (counterModeBlock s.liv s.ctrin.toNat s)
      dout := counterModeBlock s.liv s.ctrin.toNat s }
  | .gcmSetup, s =>
    { s with
      h := cipher 0#128 s.rk
      liv := s.iv
      kc := Config.keyCommit s.key
      tag := 0#128
      acnt := 0#32
      ccnt := 0#32
      status := { s.status with mode := .gcmAad }
      dout := cipher 0#128 s.rk }
  | .gcmAad, s =>
    { s with tag := ghashFold s.h s.tag s.din, acnt := s.acnt + 1, dout := ghashFold s.h s.tag s.din }
  | .gcmEnc _, s =>
    { s with
      tag := ghashFold s.h s.tag (counterModeBlock s.liv (s.ccnt.toNat + 1) s)
      ccnt := s.ccnt + 1
      status := { s.status with mode := .gcmEnc }
      dout := counterModeBlock s.liv (s.ccnt.toNat + 1) s }
  | .gcmFinal _, s =>
    { s with
      tag := ghashFold s.h s.tag (lenblock s.acnt.toNat s.ccnt.toNat) ^^^ cipher s.liv s.rk
      status := { s.status with mode := .gcmDone }
      dout := ghashFold s.h s.tag (lenblock s.acnt.toNat s.ccnt.toNat) ^^^ cipher s.liv s.rk }

/-! ### The operand check of the three commands whose operand can be bad -/

theorem operandCheck_rd_eq_none (n : Byte) (s : State) :
    operandCheck (.rd n) s = none ↔ (regOfNumber n).isSome := by
  simp [operandCheck, failIf_eq_none, Instr.wellFormed, regOfNumber_isSome]

theorem operandCheck_addRk_eq_none (n : Byte) (s : State) :
    operandCheck (.addRk n) s = none ↔ n.toNat ≤ 10 := by
  simp [operandCheck, failIf_eq_none, Instr.wellFormed]

theorem operandCheck_wr_eq_none (n : Byte) (s : State) :
    operandCheck (.wr n) s = none ↔ n.toNat ≤ 4 ∧ (n = 0x04#8 → high96 s.din = 0#96) := by
  simp [operandCheck, failIf_eq_none, Instr.wellFormed, writableNumber]

/-- A command is run by its checks and its writes, once a failed operand check is seen to be raised. -/
theorem checked_operandCheck (i : Instr) (s : State) :
    checked (operandCheck i s :: stateChecks i s) s (commandWrites i s) =
      if operandCheck i s = none then checked (stateChecks i s) s (commandWrites i s)
      else raise .badOperand s := by
  unfold operandCheck
  cases (!i.wellFormed || decide (i = .wr 0x04#8 ∧ high96 s.din ≠ 0#96)) <;> rfl

/-- Every command is its checks and its writes. -/
theorem exec_eq_checked (i : Instr) (s : State) :
    exec i s = checked (operandCheck i s :: stateChecks i s) s (commandWrites i s) := by
  cases i with
  | rd n =>
    rw [checked_operandCheck]
    simp only [operandCheck_rd_eq_none, exec, execRd, commandWrites, rdValue]
    cases regOfNumber n <;> rfl
  | wr n =>
    rw [checked_operandCheck]
    simp only [operandCheck_wr_eq_none, exec, execWr]
    obtain ⟨rfl, hw⟩ | ⟨rfl, hw⟩ | ⟨rfl, hw⟩ | ⟨rfl, hw⟩ | ⟨rfl, hd, hw⟩ | ⟨hn, hw⟩ :=
      writeReg_cases n s.din s
    iterate 4 rw [hw]; rfl
    · rw [hw, if_pos ⟨by decide, fun _ => hd⟩]; rfl
    · rw [hw, if_neg]
      rintro ⟨hle, hctrin⟩
      obtain hlt | ⟨h4, hd⟩ := hn
      · omega
      · exact hd (hctrin h4)
  | addRk n =>
    rw [checked_operandCheck]
    simp only [operandCheck_addRk_eq_none, exec, execAddRk, commandWrites]
    cases hi : roundIndex n with
    | none => rw [if_neg (Nat.not_le.2 ((roundIndex_eq_none n).1 hi))]
    | some j =>
      have := (roundIndex_eq_some n j).1 hi
      rw [if_pos (by omega)]; rfl
  | _ => rfl

/-- Everything a command can do: complete with its writes, all checks passed, or fail with one of its
checks and write nothing but STATUS. -/
theorem exec_cases {i : Instr} {s t : State} (h : exec i s = .next t) :
    (operandCheck i s = none ∧ (∀ c ∈ stateChecks i s, c = none) ∧ t = succeed (commandWrites i s)) ∨
    (∃ e, firstFailure (operandCheck i s :: stateChecks i s) = some e ∧ t = failWith e s) := by
  rw [exec_eq_checked] at h
  obtain ⟨hpass, ht⟩ | ⟨e, he, -, ht⟩ := checked_cases h
  · rw [List.forall_mem_cons] at hpass
    exact .inl ⟨hpass.1, hpass.2, ht⟩
  · exact .inr ⟨e, he, ht⟩

/-- A property of states is kept by every step if a reset establishes it and accepting a transaction, a
failure and every command that passes its checks keep it. -/
theorem step_keeps {P : State → Prop} (hreset : ∀ rest, P (resetState rest))
    (haccept : ∀ tr rest s, P s → P (accept tr rest s)) (hfail : ∀ e s, P s → P (failWith e s))
    (hpass : ∀ i s, (∀ c ∈ stateChecks i s, c = none) → P s → P (succeed (commandWrites i s)))
    {s t : State} (hs : P s) (h : step s = .next t) : P t := by
  obtain ⟨-, ht⟩ | ⟨_, rest, -, ht⟩ | ⟨tr, rest, _, -, -, ht⟩ | ⟨tr, rest, i, -, -, ht⟩ := step_cases h
  · exact Host.Outcome.next.inj ht ▸ hs
  · exact Host.Outcome.next.inj ht ▸ hreset rest
  · exact Host.Outcome.next.inj ht ▸ hfail _ _ (haccept tr rest s hs)
  · have hacc := haccept tr rest s hs
    obtain ⟨-, hchecks, rfl⟩ | ⟨e, -, rfl⟩ := exec_cases ht.symm
    · exact hpass i _ hchecks hacc
    · exact hfail e _ hacc

end Sys2Proof.Machine
end

