-- ==== Sys2Proof/Proofs/Invariants.lean ====
section
/-! PROOFS. The reset state, and the invariants of the error record and of CCNT: both are about a few
registers, which the commands that write them re-establish (R31, R32, R39, R50, R251, R272, R273). -/

namespace Sys2Proof.Machine

open Sys2Proof.Safety

/-! ### The error record -/

/-- The writes of every command but CLRERR keep SERR and ECODE (R251, R273). -/
theorem commandWrites_keeps_errorRecord {i : Instr} (hi : i ≠ .clrerr) (s : State) :
    (commandWrites i s).status.serr = s.status.serr ∧
    (commandWrites i s).status.ecode = s.status.ecode := by
  cases i with
  | clrerr => exact absurd rfl hi
  | wr n => unfold commandWrites; dsimp only; split_ifs <;> exact ⟨rfl, rfl⟩
  | _ => exact ⟨rfl, rfl⟩

theorem errorNumber_ne_zero (e : ErrorCode) : errorNumber e ≠ 0#8 := by cases e <;> decide

theorem errorRecordConsistent_reset : ErrorRecordConsistent State.reset := by
  unfold ErrorRecordConsistent
  decide

/-- A failure leaves a consistent record, whatever stood there: its code is 1 to 10 (R270, R272). -/
theorem errorRecordConsistent_failWith (e : ErrorCode) (s : State) :
    ErrorRecordConsistent (failWith e s) :=
  ⟨fun _ => rfl, iff_of_true rfl (errorNumber_ne_zero e), (errorNumber_range e).2⟩

/-- A command that succeeds keeps the record, or is CLRERR and empties it (R251, R273). -/
theorem errorRecordConsistent_succeed (i : Instr) {s : State} (h : ErrorRecordConsistent s) :
    ErrorRecordConsistent (succeed (commandWrites i s)) := by
  by_cases hi : i = .clrerr
  · subst hi; simp [ErrorRecordConsistent, commandWrites]
  · obtain ⟨hserr, hecode⟩ := commandWrites_keeps_errorRecord hi s
    obtain ⟨-, hiff, hle⟩ := h
    simpa [ErrorRecordConsistent, hserr, hecode] using ⟨hiff, hle⟩

/-! ### The ciphertext block count -/

theorem cipherCountInRange_reset : CipherCountInRange State.reset := by
  unfold CipherCountInRange
  decide

/-- A failure keeps CCNT, and keeps MODE or ends the chain (R272). -/
theorem cipherCountInRange_failWith (e : ErrorCode) {s : State} (h : CipherCountInRange s) :
    CipherCountInRange (failWith e s) := by
  cases he : endsChain e with
  | true => simpa [CipherCountInRange, he] using h.1
  | false => simpa [CipherCountInRange, he] using h

/-- GCM_ENC counts its block, and its LIMIT check leaves room for it (R225). -/
theorem toNat_ccnt_add_one {v : Bool} {s : State} (h : ∀ c ∈ stateChecks (.gcmEnc v) s, c = none) :
    (s.ccnt + 1).toNat = s.ccnt.toNat + 1 ∧ s.ccnt.toNat + 1 ≤ 4294967294 := by
  have hlimit := (encLimitCheck_eq_none s).1 (h _ (by simp [stateChecks]))
  exact ⟨by bv_omega, by omega⟩

/-- Only GCM_SETUP, GCM_ENC and the commands that leave the GCM modes write CCNT or MODE (R32, R39). -/
theorem cipherCountInRange_succeed {i : Instr} {s : State} (hchecks : ∀ c ∈ stateChecks i s, c = none)
    (h : CipherCountInRange s) : CipherCountInRange (succeed (commandWrites i s)) := by
  cases i with
  | wr n => unfold commandWrites; dsimp only; split_ifs <;> exact h
  | gcmSetup => simp [CipherCountInRange, commandWrites]
  | gcmEnc v =>
    obtain ⟨hnext, hle⟩ := toNat_ccnt_add_one hchecks
    exact ⟨hnext.trans_le hle, nofun, fun _ => (Nat.le_add_left 1 _).trans hnext.ge⟩
  | ctrBase v => exact ⟨h.1, nofun, nofun⟩
  | gcmFinal v => exact ⟨h.1, nofun, nofun⟩
  | _ => exact h

end Sys2Proof.Machine

open Sys2Proof.Machine

/-- Settles O52: a failure writes a consistent record, and a success writes none or an empty one. -/
theorem errorRecordKept : Obligations.ErrorRecordKept := fun _ _ =>
  step_keeps (fun _ => errorRecordConsistent_reset) (fun _ _ _ h => h)
    (fun e s _ => errorRecordConsistent_failWith e s) (fun i _ _ h => errorRecordConsistent_succeed i h)

/-- Settles O53: GCM_SETUP starts the count, GCM_ENC counts below its limit, and no other command writes
CCNT or enters a GCM mode. -/
theorem cipherCountKept : Obligations.CipherCountKept := fun _ _ =>
  step_keeps (fun _ => cipherCountInRange_reset) (fun _ _ _ h => h)
    (fun e _ h => cipherCountInRange_failWith e h) (fun _ _ hchecks h => cipherCountInRange_succeed hchecks h)

/-- Settles O10: each register's value in the reset state as written, the round keys one by one. -/
theorem resetStateValues : Obligations.ResetStateValues := by
  unfold Obligations.ResetStateValues
  decide

/-- Settles O54: KVALID is 0 after reset, ECODE and CCNT are 0 and MODE is IDLE. -/
theorem resetMeetsInvariants : Obligations.ResetMeetsInvariants :=
  ⟨nofun, errorRecordConsistent_reset, cipherCountInRange_reset⟩

end

