-- ==== Sys2Proof/Proofs/OperandErrors.lean ====
section
/-! PROOFS. BAD_OPERAND comes from the operand check and from nowhere else (R155, R252, R253, R275). -/

namespace Sys2Proof.Machine

open Sys2Proof.Safety

/-- The two ways to write what a failure leaves (R272). -/
theorem failWith_eq_failedWith (e : ErrorCode) (s : State) :
    failWith e s = failedWith (errorNumber e).toNat s := by
  cases e <;> rfl

theorem operandCheck_eq_some (i : Instr) (s : State) (e : ErrorCode) :
    operandCheck i s = some e ↔
      (i.wellFormed = false ∨ (i = .wr 0x04#8 ∧ high96 s.din ≠ 0#96)) ∧ .badOperand = e := by
  simp [operandCheck, failIf_eq_some]

/-- A failed operand check comes before every other check (R275). -/
theorem exec_of_badOperand {i : Instr} {s : State}
    (h : i.wellFormed = false ∨ (i = .wr 0x04#8 ∧ high96 s.din ≠ 0#96)) :
    exec i s = .next (failWith .badOperand s) := by
  rw [exec_eq_checked, (operandCheck_eq_some i s _).2 ⟨h, rfl⟩]
  rfl

/-- No check of the state reports BAD_OPERAND. -/
theorem badOperand_notMem_stateChecks (i : Instr) (s : State) : some .badOperand ∉ stateChecks i s := by
  have hne : ∀ (b : Bool) {e : ErrorCode}, e ≠ .badOperand → some .badOperand ≠ failIf b e :=
    fun b e he h => he ((failIf_eq_some b e _).1 h.symm).2
  cases i <;>
    simp [stateChecks, gcmChecks, keyCheck, phaseCheck, ivCheck, commitCheck, hCheck, counterCheck, outputCheck,
      aadLimitCheck, encLimitCheck, hne]

end Sys2Proof.Machine

open Sys2Proof.Machine

/-- Settles O6: the operand check is made first and raises BAD_OPERAND, and no later check does. -/
theorem badOperandCauses : Obligations.BadOperandCauses := by
  intro i s
  refine ⟨fun h => exec_of_badOperand (.inl h), fun h => exec_of_badOperand (.inr ⟨rfl, h⟩), ?_⟩
  intro t ht hlerr hecode
  obtain ⟨-, -, rfl⟩ | ⟨e, he, rfl⟩ := exec_cases ht
  · exact absurd hlerr Bool.false_ne_true
  · obtain rfl : e = .badOperand := errorNumber_injective hecode
    obtain hop | hstate := List.mem_cons.1 (firstFailure_mem he)
    · exact ((operandCheck_eq_some i s _).1 hop.symm).1
    · exact absurd hstate (badOperand_notMem_stateChecks i s)

end

