-- ==== Sys2Proof/Proofs/StatusWord.lean ====
section
/-! PROOFS. The fields of STATUS read back from its word (R31, R32). -/

namespace Sys2Proof.Machine

theorem modeNumber_injective : Function.Injective modeNumber := by
  intro a b; cases a <;> cases b <;> decide

theorem modeNumber_le (m : Mode) : (modeNumber m).toNat ≤ 5 := by cases m <;> decide

@[simp] theorem extractLsb'_statusWord_mode (s : Status) :
    (statusWord s).extractLsb' 0 3 = modeNumber s.mode :=
  BitVec.extractLsb'_append_eq_right

@[simp] theorem getLsbD_statusWord_kvalid (s : Status) : (statusWord s).getLsbD 3 = s.kvalid := by
  simp only [statusWord, BitVec.getLsbD_append]
  simp

@[simp] theorem getLsbD_statusWord_lerr (s : Status) : (statusWord s).getLsbD 4 = s.lerr := by
  simp only [statusWord, BitVec.getLsbD_append]
  simp

@[simp] theorem getLsbD_statusWord_serr (s : Status) : (statusWord s).getLsbD 5 = s.serr := by
  simp only [statusWord, BitVec.getLsbD_append]
  simp

@[simp] theorem extractLsb'_statusWord_ecode (s : Status) : (statusWord s).extractLsb' 8 8 = s.ecode := by
  unfold statusWord
  iterate 5 rw [BitVec.extractLsb'_append_eq_of_le (by decide)]
  exact BitVec.extractLsb'_append_eq_right

/-- The reserved bits read 0 (R31). -/
theorem extractLsb'_statusWord_reserved (s : Status) :
    (statusWord s).extractLsb' 6 2 = 0#2 ∧ (statusWord s).extractLsb' 16 16 = 0#16 := by
  unfold statusWord
  constructor
  · iterate 4 rw [BitVec.extractLsb'_append_eq_of_le (by decide)]
    exact BitVec.extractLsb'_append_eq_right
  · iterate 6 rw [BitVec.extractLsb'_append_eq_of_le (by decide)]
    exact BitVec.extractLsb'_eq_self

/-- The word determines the value, for each field is read back from it. -/
theorem statusWord_injective : Function.Injective statusWord := by
  intro s t h
  have hmode : s.mode = t.mode := modeNumber_injective <| by
    rw [← extractLsb'_statusWord_mode, h, extractLsb'_statusWord_mode]
  have hkvalid : s.kvalid = t.kvalid := by rw [← getLsbD_statusWord_kvalid, h, getLsbD_statusWord_kvalid]
  have hlerr : s.lerr = t.lerr := by rw [← getLsbD_statusWord_lerr, h, getLsbD_statusWord_lerr]
  have hserr : s.serr = t.serr := by rw [← getLsbD_statusWord_serr, h, getLsbD_statusWord_serr]
  have hecode : s.ecode = t.ecode := by rw [← extractLsb'_statusWord_ecode, h, extractLsb'_statusWord_ecode]
  cases s; cases t; simp_all

end Sys2Proof.Machine

open Sys2Proof.Machine

/-- Settles O44: each field is read back from the word, the MODE field through the six mode numbers. -/
theorem statusWordLayout : Obligations.StatusWordLayout := by
  refine ⟨fun s => ?_, fun s t h => statusWord_injective h⟩
  obtain ⟨hlow, hhigh⟩ := extractLsb'_statusWord_reserved s
  have hmode : ∀ m, s.mode = m → (statusWord s).extractLsb' 0 3 = modeNumber m := by
    rintro _ rfl; exact extractLsb'_statusWord_mode s
  refine ⟨hmode _, hmode _, hmode _, hmode _, hmode _, hmode _, getLsbD_statusWord_kvalid s,
    getLsbD_statusWord_lerr s, getLsbD_statusWord_serr s, hlow, extractLsb'_statusWord_ecode s, hhigh, ?_⟩
  rw [extractLsb'_statusWord_mode]
  exact modeNumber_le s.mode

end

