-- ==== Sys2Proof/Proofs/RegisterFrames.lean ====
section
/-! PROOFS. Which registers a command can change, and that EXP and CTRIN are carried through the commands
that do not read them (R23 to R40, R86). -/

namespace Sys2Proof.Machine

open Sys2Proof.Safety

/-! ### Changing a register that no check and no write of a command reads -/

/-- A change `f` of the state that the checks and the writes of a command do not see passes through the
command. -/
theorem exec_mapNext {f : State → State} {i : Instr} {s : State}
    (hsucceed : ∀ t, succeed (f t) = f (succeed t)) (hfail : ∀ e t, failWith e (f t) = f (failWith e t))
    (hoperand : operandCheck i (f s) = operandCheck i s) (hchecks : stateChecks i (f s) = stateChecks i s)
    (hwrites : commandWrites i (f s) = f (commandWrites i s)) :
    exec i (f s) = mapNext f (exec i s) := by
  rw [exec_eq_checked, exec_eq_checked, hoperand, hchecks, hwrites]
  unfold checked
  split
  · simp only [raise_eq, mapNext, hfail]
  · simp only [complete_eq, mapNext, hsucceed]

/-- `s` with another value of EXP. -/
def State.withExp (x : Block) (s : State) : State := { s with exp := x }

/-- `s` with another value of CTRIN. -/
def State.withCtrin (n : Word) (s : State) : State := { s with ctrin := n }

theorem regOfNumber_eq_exp (n : Byte) : regOfNumber n = some .exp ↔ n = 0x03#8 := by
  unfold regOfNumber
  split <;> simp_all

theorem regOfNumber_eq_ctrin (n : Byte) : regOfNumber n = some .ctrin ↔ n = 0x04#8 := by
  unfold regOfNumber
  split <;> simp_all

theorem readReg_withExp {r : Reg} (h : r ≠ .exp) (x : Block) (s : State) :
    readReg r (s.withExp x) = readReg r s := by
  cases r with
  | exp => exact absurd rfl h
  | _ => rfl

theorem readReg_withCtrin {r : Reg} (h : r ≠ .ctrin) (n : Word) (s : State) :
    readReg r (s.withCtrin n) = readReg r s := by
  cases r with
  | ctrin => exact absurd rfl h
  | _ => rfl

theorem rdValue_withExp {n : Byte} (h : n ≠ 0x03#8) (x : Block) (s : State) :
    rdValue n (s.withExp x) = rdValue n s := by
  unfold rdValue
  cases hr : regOfNumber n with
  | none => rfl
  | some r => exact readReg_withExp (fun he => h ((regOfNumber_eq_exp n).1 (he ▸ hr))) x s

theorem rdValue_withCtrin {a : Byte} (h : a ≠ 0x04#8) (n : Word) (s : State) :
    rdValue a (s.withCtrin n) = rdValue a s := by
  unfold rdValue
  cases hr : regOfNumber a with
  | none => rfl
  | some r => exact readReg_withCtrin (fun he => h ((regOfNumber_eq_ctrin a).1 (he ▸ hr))) n s

theorem stateChecks_withExp {i : Instr} (h : touchesExp i = false) (x : Block) (s : State) :
    stateChecks i (s.withExp x) = stateChecks i s := by
  cases i with
  | ctrBase v | ctrStep v | gcmEnc v | gcmFinal v => obtain rfl : v = false := h; rfl
  | _ => rfl

theorem stateChecks_withCtrin {i : Instr} (h : touchesCtrin i = false) (n : Word) (s : State) :
    stateChecks i (s.withCtrin n) = stateChecks i s := by
  cases i with
  | ctrStep v => nomatch h
  | _ => rfl

/-- No write but RD EXP and WR EXP sees EXP. (The GHASH products are compared as they stand: to unfold
their 128 rounds is needless.) -/
theorem commandWrites_withExp {i : Instr} (h : touchesExp i = false) (x : Block) (s : State) :
    commandWrites i (s.withExp x) = (commandWrites i s).withExp x := by
  cases i with
  | rd n =>
    have hn : n ≠ 0x03#8 := by simpa [touchesExp] using h
    simp only [commandWrites, rdValue_withExp hn]
    rfl
  | wr n =>
    have hn : n ≠ 0x03#8 := by simpa [touchesExp] using h
    simp only [commandWrites, hn, if_false]
    split_ifs <;> rfl
  | gf128Mul | gcmAad | gcmEnc v | gcmFinal v => simp only [commandWrites, writeDout, counterModeBlock, State.withExp]
  | _ => rfl

/-- No write but RD CTRIN, WR CTRIN and CTR_STEP's sees CTRIN. -/
theorem commandWrites_withCtrin {i : Instr} (h : touchesCtrin i = false) (n : Word) (s : State) :
    commandWrites i (s.withCtrin n) = (commandWrites i s).withCtrin n := by
  cases i with
  | rd a =>
    have ha : a ≠ 0x04#8 := by simpa [touchesCtrin] using h
    simp only [commandWrites, rdValue_withCtrin ha]
    rfl
  | wr a =>
    have ha : a ≠ 0x04#8 := by simpa [touchesCtrin] using h
    simp only [commandWrites, ha, if_false]
    split_ifs <;> rfl
  | ctrStep v => nomatch h
  | gf128Mul | gcmAad | gcmEnc v | gcmFinal v => simp only [commandWrites, writeDout, counterModeBlock, State.withCtrin]
  | _ => rfl

end Sys2Proof.Machine

open Sys2Proof.Machine

/-- Settles O55: a failure changes only STATUS, and the writes of each command are read off, those of WR by
its register number. -/
theorem registerWriters : Obligations.RegisterWriters := by
  intro i s t h
  obtain ⟨-, -, rfl⟩ | ⟨e, -, rfl⟩ := exec_cases h
  · cases i with
    | wr n => unfold commandWrites; dsimp only; split_ifs <;> simp [*]
    | _ => simp [commandWrites]
  · simp

/-- Settles O57: a change of EXP passes through a command that does not touch EXP, and the same for CTRIN. -/
theorem expAndCtrinReaders : Obligations.ExpAndCtrinReaders :=
  ⟨fun _ s x h => exec_mapNext (f := State.withExp x) (fun _ => rfl) (fun _ _ => rfl) rfl
      (stateChecks_withExp h x s) (commandWrites_withExp h x s),
    fun _ s n h => exec_mapNext (f := State.withCtrin n) (fun _ => rfl) (fun _ _ => rfl) rfl
      (stateChecks_withCtrin h n s) (commandWrites_withCtrin h n s)⟩

end

