-- ==== Sys2Proof/Proofs/Totality.lean ====
section
/-! PROOFS. The core never hangs: every command and every step answers a next state, so a run is observed
once a step (R320, R325). -/

namespace Sys2Proof.Machine

open Sys2Proof.Safety

/-- Passed checks complete the command, and a failed one is reported in STATUS (R272, R273). -/
theorem exists_checked_eq_next (cs : List (Option ErrorCode)) (s t : State) : ∃ u, checked cs s t = .next u := by
  cases h : firstFailure cs with
  | none => exact ⟨_, checked_pass ((firstFailure_eq_none cs).1 h) s t⟩
  | some e => exact ⟨_, checked_fail h s t⟩

/-- Every command is total (R325). -/
theorem exists_exec_eq_next (i : Instr) (s : State) : ∃ t, exec i s = .next t := by
  rw [exec_eq_checked]
  exact exists_checked_eq_next _ s _

/-- Every step is total: idle, reset, an illegal word, or one command. -/
theorem exists_step_eq_next (s : State) : ∃ t, step s = .next t := by
  obtain ⟨-, h⟩ | ⟨_, _, -, h⟩ | ⟨_, _, _, -, -, h⟩ | ⟨tr, rest, i, -, -, h⟩ := step_cases (s := s) rfl
  · exact ⟨_, h⟩
  · exact ⟨_, h⟩
  · exact ⟨_, h⟩
  · rw [h]
    exact exists_exec_eq_next i (accept tr rest s)

theorem observations_succ {s t : State} (h : step s = .next t) (n : Nat) :
    observations (n + 1) s = observe t :: observations n t := by
  rw [observations, h]

/-- No run is cut short, for no step stops. -/
theorem length_observations (n : Nat) (s : State) : (observations n s).length = n := by
  induction n generalizing s with
  | zero => rfl
  | succ n ih =>
    obtain ⟨t, ht⟩ := exists_step_eq_next s
    rw [observations_succ ht, List.length_cons, ih]

end Sys2Proof.Machine

open Sys2Proof.Machine

/-- Settles O11: a command fails or completes, with a next state either way, and the observations follow the
steps one by one. -/
theorem coreNeverHangs : Obligations.CoreNeverHangs :=
  ⟨exists_step_eq_next, fun _ => ⟨rfl, rfl⟩, fun _ _ n h => observations_succ h n, length_observations⟩

end

