-- ==== Sys2Proof/Proofs/Encoding.lean ====
section
/-! PROOFS. A command word is determined by its five fields, and it decodes to an instruction iff it is the word
the encoder lays out for that instruction (R81 to R87). -/

namespace Sys2Proof

open Laws.EncodedFields

/-! ### The value of a word -/

/-- R81: the word's value by its fields. -/
theorem toNat_eq_fields (cmd : Word) :
    cmd.toNat = (opField cmd).toNat + (aField cmd).toNat * 2 ^ 8 + (bField cmd).toNat * 2 ^ 16 +
      (vField cmd).toNat * 2 ^ 24 + (rsvField cmd).toNat * 2 ^ 25 := by
  have hlt := cmd.isLt
  simp only [opField, aField, bField, vField, rsvField, BitVec.extractLsb'_toNat, Nat.shiftRight_eq_div_pow,
    BitVec.getLsbD, Nat.toNat_testBit]
  omega

/-- Two words are the same iff all their fields are. -/
theorem word_eq_iff_fields_eq (c d : Word) :
    c = d ↔ opField c = opField d ∧ aField c = aField d ∧ bField c = bField d ∧ vField c = vField d ∧
      rsvField c = rsvField d := by
  refine ⟨by rintro rfl; simp, fun ⟨hop, ha, hb, hv, hrsv⟩ => BitVec.eq_of_toNat_eq ?_⟩
  rw [toNat_eq_fields c, toNat_eq_fields d, hop, ha, hb, hv, hrsv]

/-! ### The fields of a word laid out from them -/

@[simp] theorem opField_commandWord (op a b : Byte) (v : Bool) : opField (commandWord op a b v) = op :=
  (commandWord_fields op a b v).1

@[simp] theorem aField_commandWord (op a b : Byte) (v : Bool) : aField (commandWord op a b v) = a :=
  (commandWord_fields op a b v).2.1

@[simp] theorem bField_commandWord (op a b : Byte) (v : Bool) : bField (commandWord op a b v) = b :=
  (commandWord_fields op a b v).2.2.1

@[simp] theorem vField_commandWord (op a b : Byte) (v : Bool) : vField (commandWord op a b v) = v :=
  (commandWord_fields op a b v).2.2.2.1

@[simp] theorem rsvField_commandWord (op a b : Byte) (v : Bool) : rsvField (commandWord op a b v) = 0#7 :=
  (commandWord_fields op a b v).2.2.2.2

/-! ### The encoder and the decoder by the instruction's fields -/

theorem encode_eq_commandWord (i : Instr) :
    encode i = commandWord (fields i).1 (fields i).2.1 (fields i).2.2.1 (fields i).2.2.2 := by
  cases i <;> rfl

theorem decodeForm_eq_ok {op : Byte} {unusedZero : Bool} {i j : Instr} :
    decodeForm op unusedZero i = .ok j ↔ unusedZero = true ∧ i = j := by
  cases unusedZero <;> simp [decodeForm]

/-- The decoder takes the fields of an instruction to it. -/
theorem decodeFields_fields (i : Instr) :
    decodeFields (fields i).1 (fields i).2.1 (fields i).2.2.1 (fields i).2.2.2 0#7 = .ok i := by
  cases i <;> rfl

/-- The decoder accepts fields as an instruction only if they are that instruction's and RSV is zero: row by row,
what the row's format does not use is checked to be zero. -/
theorem fields_of_decodeFields {op a b : Byte} {v : Bool} {rsv : BitVec 7} {i : Instr}
    (h : decodeFields op a b v rsv = .ok i) : fields i = (op, a, b, v) ∧ rsv = 0#7 := by
  unfold decodeFields at h
  split at h
  case h_25 => cases h
  all_goals
    obtain ⟨hzero, rfl⟩ := decodeForm_eq_ok.1 h
    simp_all [fields]

/-- R81 to R87: a word decodes to an instruction iff it is that instruction's word. -/
theorem decode_eq_ok_iff (cmd : Word) (i : Instr) : decode cmd = .ok i ↔ encode i = cmd := by
  constructor
  · intro h
    obtain ⟨hfields, hrsv⟩ := fields_of_decodeFields h
    rw [encode_eq_commandWord, hfields, word_eq_iff_fields_eq]
    simp [hrsv]
  · rintro rfl
    simpa [decode, encode_eq_commandWord] using decodeFields_fields i

/-- RSV is zero in every legal word (R81, R87). -/
theorem rsvField_of_decode {cmd : Word} {i : Instr} (h : decode cmd = .ok i) : rsvField cmd = 0#7 :=
  (fields_of_decodeFields h).2

end Sys2Proof

open Sys2Proof

/-- Settles O1, by running the decoder on each word. -/
theorem specWordsDecode : Obligations.SpecWordsDecode := by
  unfold Obligations.SpecWordsDecode
  decide

/-- Settles O2: the encoder's word is its own instruction's. -/
theorem decodeOfEncodeIsTheInstruction : Obligations.DecodeOfEncodeIsTheInstruction :=
  fun i => (decode_eq_ok_iff _ i).2 rfl

/-- Settles O3: a word that decodes is its instruction's. -/
theorem encodeOfDecodedWordIsTheWord : Obligations.EncodeOfDecodedWordIsTheWord :=
  fun cmd i => (decode_eq_ok_iff cmd i).1

/-- Settles O4: the fields are base-2 digits of the value, and the decoder checks RSV in every row. -/
theorem commandWordValue : Obligations.CommandWordValue :=
  fun cmd => ⟨toNat_eq_fields cmd, fun _ => rsvField_of_decode⟩

end

