-- ==== Sys2Proof/Proofs/Legality.lean ====
section
/-! PROOFS. The words that decode are those the opcode map and the format masks admit, what a step does with
either kind, and the pseudo-instructions (R61, R80, R83, R85, R90). -/

namespace Sys2Proof

open Laws.EncodedFields

/-! ### The fields of a masked word -/

@[simp] theorem opField_and (c d : Word) : opField (c &&& d) = opField c &&& opField d :=
  BitVec.extractLsb'_and

@[simp] theorem aField_and (c d : Word) : aField (c &&& d) = aField c &&& aField d :=
  BitVec.extractLsb'_and

@[simp] theorem bField_and (c d : Word) : bField (c &&& d) = bField c &&& bField d :=
  BitVec.extractLsb'_and

@[simp] theorem vField_and (c d : Word) : vField (c &&& d) = (vField c && vField d) :=
  BitVec.getLsbD_and

@[simp] theorem rsvField_and (c d : Word) : rsvField (c &&& d) = rsvField c &&& rsvField d :=
  BitVec.extractLsb'_and

/-- An opcode alone, in bits [7:0] of a word, is the word with that opcode and nothing else. -/
theorem setWidth_eq_commandWord (op : Byte) : op.setWidth 32 = commandWord op 0 0 false :=
  BitVec.setWidth_eq_append (by decide)

/-! ### Legality -/

/-- The word with opcode `op`, the fields of `cmd` that format `f` uses, and every other field zero (R83). -/
def formatWord (f : Format) (op : Byte) (cmd : Word) : Word :=
  match f with
  | .n => commandWord op 0 0 false
  | .a => commandWord op (aField cmd) 0 false
  | .ab => commandWord op (aField cmd) (bField cmd) false
  | .v => commandWord op 0 0 (vField cmd)

/-- The format mask keeps the opcode and the fields the format does not use (R83). -/
theorem formatMask_fields (f : Format) :
    opField (formatMask f) = BitVec.allOnes 8 ∧
    aField (formatMask f) = (if f = .a ∨ f = .ab then 0#8 else BitVec.allOnes 8) ∧
    bField (formatMask f) = (if f = .ab then 0#8 else BitVec.allOnes 8) ∧
    vField (formatMask f) = decide (f ≠ .v) ∧ rsvField (formatMask f) = BitVec.allOnes 7 := by
  cases f <;> decide

/-- A word matches a row's mask and match word iff it has the row's opcode and zeros outside the format's
fields. -/
theorem and_formatMask_eq_iff (f : Format) (op : Byte) (cmd : Word) :
    cmd &&& formatMask f = op.setWidth 32 ↔ cmd = formatWord f op cmd := by
  obtain ⟨hop, ha, hb, hv, hrsv⟩ := formatMask_fields f
  rw [setWidth_eq_commandWord, word_eq_iff_fields_eq, word_eq_iff_fields_eq]
  cases f <;> simp [formatWord, hop, ha, hb, hv, hrsv, -BitVec.reduceAllOnes]

/-- Legality by rows of the opcode map (R83, R85). -/
theorem legalCommand_iff (cmd : Word) :
    legalCommand cmd = true ↔ ∃ row ∈ opcodeMap, cmd = formatWord row.2 row.1 cmd := by
  simp only [legalCommand, List.any_eq_true, beq_iff_eq, and_formatMask_eq_iff]

/-- The format of an instruction's row in the opcode map (R82). -/
def instrFormat : Instr → Format
  | .rd _ | .wr _ | .gf8Xtime _ | .gf8Inv _ | .gf8Affine _ | .gf8Sbox _ | .addRk _ => .a
  | .gf8Add _ _ | .gf8Mul _ _ => .ab
  | .ctrBase _ | .ctrStep _ | .gcmEnc _ | .gcmFinal _ => .v
  | _ => .n

theorem mem_opcodeMap (i : Instr) : ((fields i).1, instrFormat i) ∈ opcodeMap := by
  cases i <;> simp [fields, instrFormat, opcodeMap]

theorem encode_eq_formatWord (i : Instr) :
    encode i = formatWord (instrFormat i) (fields i).1 (encode i) := by
  cases i <;> simp [encode, fields, instrFormat, formatWord]

/-- Each row of the opcode map is the row of an instruction, whatever the fields its format uses hold. -/
theorem exists_encode_eq_formatWord (cmd : Word) :
    ∀ row ∈ opcodeMap, ∃ i, encode i = formatWord row.2 row.1 cmd := by
  simp only [opcodeMap, List.forall_mem_cons]
  exact ⟨⟨.nop, rfl⟩, ⟨.clrerr, rfl⟩, ⟨.rd _, rfl⟩, ⟨.wr _, rfl⟩, ⟨.gf8Add _ _, rfl⟩, ⟨.gf8Xtime _, rfl⟩,
    ⟨.gf8Mul _ _, rfl⟩, ⟨.gf8Inv _, rfl⟩, ⟨.gf8Affine _, rfl⟩, ⟨.gf8Sbox _, rfl⟩, ⟨.gf128Add, rfl⟩,
    ⟨.gf128Mul, rfl⟩, ⟨.subBytes, rfl⟩, ⟨.shiftRows, rfl⟩, ⟨.mixColumns, rfl⟩, ⟨.addRk _, rfl⟩,
    ⟨.keyExpand, rfl⟩, ⟨.encrypt, rfl⟩, ⟨.ctrBase _, rfl⟩, ⟨.ctrStep _, rfl⟩, ⟨.gcmSetup, rfl⟩,
    ⟨.gcmAad, rfl⟩, ⟨.gcmEnc _, rfl⟩, ⟨.gcmFinal _, rfl⟩, List.forall_mem_nil _⟩

/-- R85: the words that decode are the legal ones. -/
theorem exists_decode_eq_ok_iff (cmd : Word) : (∃ i, decode cmd = .ok i) ↔ legalCommand cmd = true := by
  simp only [decode_eq_ok_iff, legalCommand_iff]
  constructor
  · rintro ⟨i, rfl⟩
    exact ⟨_, mem_opcodeMap i, encode_eq_formatWord i⟩
  · rintro ⟨row, hrow, hcmd⟩
    rw [hcmd]
    exact exists_encode_eq_formatWord cmd row hrow

end Sys2Proof

namespace Sys2Proof.Machine

open Safety

/-! ### The step on a transaction -/

/-- A transaction with a legal word is its command, run at the accepted transaction (R61, R80). -/
theorem step_of_decode_ok {s : State} {t : Transaction} {rest : List HostEvent} {i : Instr}
    (hhost : s.host = .transact t :: rest) (hdecode : decode t.cmd = .ok i) :
    step s = exec i (accept t rest s) := by
  simp only [step, hhost, hdecode]

/-- A transaction with an illegal word is ILLEGAL_CMD (R85). -/
theorem step_of_illegal {s : State} {t : Transaction} {rest : List HostEvent}
    (hhost : s.host = .transact t :: rest) (hillegal : legalCommand t.cmd = false) :
    step s = .next (failedWith 1 (accept t rest s)) := by
  cases hd : decode t.cmd with
  | ok i =>
    have hlegal := (exists_decode_eq_ok_iff t.cmd).1 ⟨i, hd⟩
    exact absurd (hlegal.symm.trans hillegal) (by decide)
  | error e =>
    simp only [step, hhost, hd, raise_eq, failWith_eq_failedWith, errorNumber]
    rfl

/-- A transaction with an instruction's word runs that instruction. -/
theorem step_of_assemble {s : State} {i : Instr} {din : Option Block} {rest : List HostEvent}
    (hhost : s.host = .transact (assemble i din) :: rest) :
    step s = exec i (accept (assemble i din) rest s) :=
  step_of_decode_ok hhost ((decode_eq_ok_iff _ i).2 rfl)

/-! ### SETKEY -/

/-- A run begins with its first step. -/
theorem run_succ_of_step {s t : State} (h : step s = .next t) (k : Nat) :
    Host.Core.run core (k + 1) s = Host.Core.run core k t := by
  simp only [Host.Core.run, core, h]

/-- The first command of SETKEY (R90, R253). -/
theorem step_assemble_wr_key {s : State} {k : Block} {rest : List HostEvent}
    (hhost : s.host = .transact (assemble (.wr 0x00#8) (some k)) :: rest) :
    ∃ t, step s = .next t ∧ t.key = k ∧ t.host = rest :=
  ⟨_, step_of_assemble hhost, rfl, rfl⟩

/-- The second command of SETKEY (R90, R186). -/
theorem step_assemble_keyExpand {s : State} {din : Option Block} {rest : List HostEvent}
    (hhost : s.host = .transact (assemble .keyExpand din) :: rest) :
    ∃ t, step s = .next t ∧
      t.key = s.key ∧ t.rk = keyExpansion s.key ∧ t.status.kvalid = true ∧ t.host = rest :=
  ⟨_, step_of_assemble hhost, rfl, rfl, rfl, rfl⟩

/-- SETKEY, run from any state, leaves the key expanded and valid (R90). -/
theorem run_setKey {s : State} {k : Block} {rest : List HostEvent}
    (hhost : s.host = (setKey k).map .transact ++ rest) :
    ∃ t, Host.Core.run core 2 s = .next t ∧
      t.key = k ∧ t.rk = keyExpansion k ∧ t.status.kvalid = true ∧ t.host = rest := by
  obtain ⟨t, hwr, rfl, hnext⟩ := step_assemble_wr_key hhost
  obtain ⟨u, hexpand, hu⟩ := step_assemble_keyExpand hnext
  exact ⟨u, (run_succ_of_step hwr 1).trans (run_succ_of_step hexpand 0), hu⟩

end Sys2Proof.Machine

open Sys2Proof Sys2Proof.Machine

/-- Settles O5: the rows of the opcode map are the instructions', and an illegal word is raised as error 1 over
the accepted transaction. -/
theorem illegalWordsRaiseIllegalCmd : Obligations.IllegalWordsRaiseIllegalCmd :=
  ⟨exists_decode_eq_ok_iff, fun _ _ _ => step_of_illegal⟩

/-- Settles O7: the step decodes and runs the command at the accepted transaction. -/
theorem stepRunsTheDecodedCommand : Obligations.StepRunsTheDecodedCommand :=
  fun _ _ _ _ => step_of_decode_ok

/-- Settles O60: the words are the encoder's, and SETKEY is its two commands run one after the other. -/
theorem pseudoInstructionExpansions : Obligations.PseudoInstructionExpansions :=
  ⟨fun _ => ⟨rfl, rfl⟩, fun _ => rfl, rfl, fun _ => rfl, fun _ _ _ => run_setKey⟩

end

