-- ==== Sys2Proof/Proofs/UnusedDin.lean ====
section
/-! PROOFS. The `din` bus is carried through the commands that do not read it (R82, R84, R226). -/

namespace Sys2Proof.Machine

open Sys2Proof.Safety

/-- `s` with another value on the `din` bus. -/
def State.withDin (d : Block) (s : State) : State := { s with din := d }

/-- `din` is no register, so RD cannot name it (R22, R61). -/
theorem rdValue_withDin (n : Byte) (d : Block) (s : State) : rdValue n (s.withDin d) = rdValue n s := by
  unfold rdValue
  cases regOfNumber n with
  | none => rfl
  | some r => cases r <;> rfl

/-- Only WR's operand check reads `din`. -/
theorem operandCheck_withDin {i : Instr} (h : usesDin i = false) (d : Block) (s : State) :
    operandCheck i (s.withDin d) = operandCheck i s := by
  cases i with
  | wr n => nomatch h
  | _ => rfl

/-- The checks that read `din` are the output checks of the three counter-mode commands. -/
theorem stateChecks_withDin {i : Instr} (h : usesDin i = false) (d : Block) (s : State) :
    stateChecks i (s.withDin d) = stateChecks i s := by
  cases i with
  | ctrBase v | ctrStep v | gcmEnc v => nomatch h
  | _ => rfl

/-- No write of a command without a use of `din` sees it; GCM_FINAL's fold is compared as it stands. -/
theorem commandWrites_withDin {i : Instr} (h : usesDin i = false) (d : Block) (s : State) :
    commandWrites i (s.withDin d) = (commandWrites i s).withDin d := by
  cases i with
  | rd n =>
    simp only [commandWrites, rdValue_withDin]
    rfl
  | wr n | gf128Add | gf128Mul | encrypt | ctrBase v | ctrStep v | gcmAad | gcmEnc v => nomatch h
  | gcmFinal v => simp only [commandWrites, State.withDin]
  | _ => rfl

end Sys2Proof.Machine

open Sys2Proof.Machine

/-- Settles O56: a change of `din` passes through a command that does not use it. -/
theorem unusedDinIsIgnored : Obligations.UnusedDinIsIgnored := fun _ s d h =>
  exec_mapNext (f := State.withDin d) (fun _ => rfl) (fun _ _ => rfl) (operandCheck_withDin h d s)
    (stateChecks_withDin h d s) (commandWrites_withDin h d s)

end

