-- ==== Sys2Proof/Proofs/PolynomialRemainder.lean ====
section
/-! PROOFS. The remainder of a polynomial over GF(2) held as a number: it is additive, and multiplying by x
before reducing is multiplying by x after it and reducing once more (R102, R105). -/

namespace Sys2Proof.Safety

theorem polyMod_succ (p deg n x : Nat) :
    polyMod p deg (n + 1) x = polyMod p deg n (if x.testBit (deg + n) then x ^^^ (p <<< n) else x) := rfl

/-- The remainder is additive. -/
theorem polyMod_xor (p deg n x y : Nat) :
    polyMod p deg n (x ^^^ y) = polyMod p deg n x ^^^ polyMod p deg n y := by
  induction n generalizing x y with
  | zero => rfl
  | succ n ih =>
    simp only [polyMod_succ, Nat.testBit_xor, ← ih]
    congr 1
    cases x.testBit (deg + n) <;> cases y.testBit (deg + n) <;> simp [Nat.xor_comm, Nat.xor_left_comm]

theorem polyMod_zero (p deg n : Nat) : polyMod p deg n 0 = 0 := by
  simpa using polyMod_xor p deg n 0 0

/-- Steps above the degree of a polynomial change nothing. -/
theorem polyMod_add_of_lt (p : Nat) {deg n x : Nat} (h : x < 2 ^ (deg + n)) (k : Nat) :
    polyMod p deg (n + k) x = polyMod p deg n x := by
  induction k with
  | zero => rfl
  | succ k ih =>
    have hbit : x.testBit (deg + (n + k)) = false :=
      Nat.testBit_lt_two_pow (h.trans_le (Nat.pow_le_pow_right (by decide) (by omega)))
    rw [← Nat.add_assoc, polyMod_succ, hbit, ← ih]
    rfl

/-- Multiplying by x and reducing is reducing, multiplying by x and reducing once more. -/
theorem polyMod_succ_shiftLeft_one (p deg n x : Nat) :
    polyMod p deg (n + 1) (x <<< 1) = polyMod p deg 1 (polyMod p deg n x <<< 1) := by
  induction n generalizing x with
  | zero => rfl
  | succ n ih =>
    have hbit : (x <<< 1).testBit (deg + (n + 1)) = x.testBit (deg + n) := by
      simp [Nat.testBit_shiftLeft, ← Nat.add_assoc]
    rw [polyMod_succ p deg (n + 1), polyMod_succ p deg n x, ← ih, hbit]
    split
    · rw [Nat.shiftLeft_xor_distrib, ← Nat.shiftLeft_add]
    · rfl

/-- The last step, by a polynomial of degree `deg`, cuts a polynomial to its bits below `deg`. -/
theorem polyMod_one {p deg x : Nat} (hp : p < 2 ^ (deg + 1)) (htop : p.testBit deg = true)
    (hx : x < 2 ^ (deg + 1)) :
    polyMod p deg 1 x = (x ^^^ if x.testBit deg then p else 0) % 2 ^ deg := by
  have hstep : polyMod p deg 1 x = x ^^^ if x.testBit deg then p else 0 := by
    simp only [polyMod, Nat.add_zero, Nat.shiftLeft_zero]
    split <;> simp
  have hhigh : ∀ i, deg < i → ∀ y, y < 2 ^ (deg + 1) → y.testBit i = false := fun i hi y hy =>
    Nat.testBit_lt_two_pow (hy.trans_le (Nat.pow_le_pow_right (by decide) hi))
  rw [hstep, Nat.mod_eq_of_lt]
  refine Nat.lt_pow_two_of_testBit _ fun i hi => ?_
  obtain rfl | hlt := Nat.eq_or_lt_of_le hi
  · cases hx : x.testBit deg <;> simp [hx, htop]
  · cases x.testBit deg <;> simp [hhigh i hlt x hx, hhigh i hlt p hp]

end Sys2Proof.Safety
end

