-- ==== Sys2Proof/Proofs/Gf8Product.lean ====
section
/-! PROOFS. GF(2^8) multiplication: it is linear in the running value of its loop, which gives the laws of a
commutative ring (R104), and turn by turn it is the polynomial product (R101, R102). -/

namespace Sys2Proof.Machine

open Sys2Proof.Safety

/-! ### xtime -/

/-- R101 on numbers. -/
theorem toNat_xtime (a : Byte) :
    (xtime a).toNat = ((2 * a.toNat) ^^^ (if 0x80 ≤ a.toNat then 0x1B else 0)) % 256 := by
  have hmsb : a.getLsbD 7 = decide (0x80 ≤ a.toNat) := BitVec.msb_eq_decide a
  have htwice : (a <<< 1).toNat = 2 * a.toNat % 2 ^ 8 := by
    rw [BitVec.toNat_shiftLeft, Nat.shiftLeft_eq, Nat.mul_comm]
  change _ = _ % 2 ^ 8
  rw [Nat.xor_mod_two_pow, ← htwice, xtime, hmsb]
  by_cases h : 0x80 ≤ a.toNat
  · simp only [h, decide_true, if_true, BitVec.toNat_xor]
    rfl
  · simp only [h, decide_false, Bool.false_eq_true, if_false, Nat.zero_mod, Nat.xor_zero]

theorem bitVec_xor_left_comm {w : Nat} (x y z : BitVec w) : x ^^^ (y ^^^ z) = y ^^^ (x ^^^ z) := by
  rw [← BitVec.xor_assoc, BitVec.xor_comm x y, BitVec.xor_assoc]

theorem xtime_xor (a b : Byte) : xtime (a ^^^ b) = xtime a ^^^ xtime b := by
  simp only [xtime, BitVec.getLsbD_xor, BitVec.shiftLeft_xor_distrib]
  cases a.getLsbD 7 <;> cases b.getLsbD 7 <;> simp [BitVec.xor_comm, bitVec_xor_left_comm]

/-! ### The laws of R104 that hold without an inverse -/

/-- The loop's result is a sum of xtime's iterates, so a map that is additive and commutes with xtime passes
through the loop. -/
theorem map_multLoop {f : Byte → Byte} (hxor : ∀ x y, f (x ^^^ y) = f x ^^^ f y)
    (hxtime : ∀ x, f (xtime x) = xtime (f x)) (b : Byte) (n i : Nat) (p t : Byte) :
    f (multLoop b n i p t) = multLoop b n i (f p) (f t) := by
  induction n generalizing i p t with
  | zero => rfl
  | succ n ih => rw [multLoop, multLoop, ih, hxtime, apply_ite f, hxor]

theorem map_mult {f : Byte → Byte} (hxor : ∀ x y, f (x ^^^ y) = f x ^^^ f y)
    (hxtime : ∀ x, f (xtime x) = xtime (f x)) (a b : Byte) : f (mult a b) = mult (f a) b := by
  have hzero : f 0 = 0 := by simpa using hxor 0 0
  rw [mult, map_multLoop hxor hxtime, hzero, mult]

theorem multLoop_xor (b : Byte) (n i : Nat) (p q t u : Byte) :
    multLoop b n i (p ^^^ q) (t ^^^ u) = multLoop b n i p t ^^^ multLoop b n i q u := by
  induction n generalizing i p q t u with
  | zero => rfl
  | succ n ih =>
    simp only [multLoop, xtime_xor, ← ih]
    congr 1
    cases b.getLsbD i <;> simp [BitVec.xor_assoc, bitVec_xor_left_comm]

theorem mult_xor_left (a b c : Byte) : mult (a ^^^ b) c = mult a c ^^^ mult b c :=
  multLoop_xor c 8 0 0 0 a b

theorem mult_xtime_left (a b : Byte) : mult (xtime a) b = xtime (mult a b) :=
  (map_mult xtime_xor (fun _ => rfl) a b).symm

/-- The iterates of xtime from 1 are the eight bits. -/
theorem one_mult (b : Byte) : mult 1#8 b = b := by
  revert b; decide +kernel

/-- Multiplying by `b` is a map that passes through the product `1 · a`. -/
theorem mult_comm (a b : Byte) : mult a b = mult b a :=
  calc mult a b = mult (mult 1#8 a) b := by rw [one_mult]
    _ = mult (mult 1#8 b) a :=
      map_mult (f := (mult · b)) (mult_xor_left · · b) (mult_xtime_left · b) 1#8 a
    _ = mult b a := by rw [one_mult]

theorem mult_xor_right (a b c : Byte) : mult a (b ^^^ c) = mult a b ^^^ mult a c := by
  simp only [mult_comm a, mult_xor_left]

theorem mult_xtime_right (a b : Byte) : mult a (xtime b) = xtime (mult a b) := by
  simp only [mult_comm a, mult_xtime_left]

/-- Multiplying by `a` is a map that passes through the product `b · c`. -/
theorem mult_assoc (a b c : Byte) : mult (mult a b) c = mult a (mult b c) :=
  (map_mult (mult_xor_right a) (mult_xtime_right a) b c).symm

theorem mult_zero (a : Byte) : mult a 0#8 = 0#8 := by simpa using mult_xor_right a 0#8 0#8

theorem mult_one (a : Byte) : mult a 1#8 = a := by rw [mult_comm, one_mult]

/-! ### The product of polynomials -/

/-- Multiplying by x and reducing once. -/
theorem toNat_xtime_eq_polyMod (a : Byte) : (xtime a).toNat = polyMod 0x11B 8 1 (a.toNat <<< 1) := by
  have hbit : (a.toNat <<< 1).testBit 8 = decide (0x80 ≤ a.toNat) :=
    (Nat.testBit_shiftLeft a.toNat).trans (BitVec.msb_eq_decide a)
  have hlt : a.toNat <<< 1 < 2 ^ (8 + 1) := by rw [Nat.shiftLeft_eq]; omega
  rw [toNat_xtime, polyMod_one (by decide) (by decide) hlt, hbit, Nat.shiftLeft_eq, Nat.mul_comm]
  change _ % 2 ^ 8 = _ % 2 ^ 8
  rw [Nat.xor_mod_two_pow, Nat.xor_mod_two_pow]
  by_cases h : 0x80 ≤ a.toNat <;> simp [h]

theorem toNat_xtime_iterate (a : Byte) (n : Nat) :
    (xtime^[n] a).toNat = polyMod 0x11B 8 n (a.toNat <<< n) := by
  induction n with
  | zero => rfl
  | succ n ih =>
    rw [Function.iterate_succ_apply', toNat_xtime_eq_polyMod, ih, ← polyMod_succ_shiftLeft_one,
      ← Nat.shiftLeft_add]

/-- The loop by its last turn, as `polyMul` takes the bits. -/
theorem multLoop_succ_last (b : Byte) (n i : Nat) (p t : Byte) :
    multLoop b (n + 1) i p t =
      multLoop b n i p t ^^^ if b.getLsbD (i + n) then xtime^[n] t else 0#8 := by
  induction n generalizing i p t with
  | zero => cases h : b.getLsbD i <;> simp [multLoop, h]
  | succ n ih =>
    rw [multLoop, ih, Function.iterate_succ_apply, Nat.add_right_comm, Nat.add_assoc]
    rfl

/-- After `n` turns the result is the reduced product by the low `n` bits of `b`. -/
theorem toNat_multLoop (a b : Byte) {n : Nat} (h : n ≤ 8) :
    (multLoop b n 0 0 a).toNat = polyMod 0x11B 8 7 (polyMul a.toNat n b.toNat) := by
  induction n with
  | zero => rw [polyMul, polyMod_zero]; rfl
  | succ n ih =>
    have hlt : a.toNat <<< n < 2 ^ (8 + n) := by
      rw [Nat.shiftLeft_eq, Nat.pow_add]
      exact Nat.mul_lt_mul_of_pos_right a.isLt (by positivity)
    have hstep : polyMod 0x11B 8 7 (a.toNat <<< n) = (xtime^[n] a).toNat := by
      obtain ⟨k, hk⟩ := Nat.exists_eq_add_of_le (Nat.le_of_lt_succ h)
      rw [toNat_xtime_iterate, hk, polyMod_add_of_lt _ hlt]
    rw [multLoop_succ_last, polyMul, polyMod_xor, BitVec.toNat_xor, ih (by omega), Nat.zero_add,
      BitVec.testBit_toNat]
    cases b.getLsbD n with
    | true => simp [hstep]
    | false => simp [polyMod_zero]

end Sys2Proof.Machine

open Sys2Proof.Machine

/-- Settles O18, by induction on the turns of the loop: the running value is the shifted operand, reduced. -/
theorem multIsPolynomialProduct : Obligations.MultIsPolynomialProduct :=
  ⟨toNat_xtime, fun a b => toNat_multLoop a b le_rfl⟩

end

