-- ==== Sys2Proof/Proofs/Gf8Inverse.lean ====
section
/-! PROOFS. The inverse of GF(2^8) is the power 254 (R103). That the power 255 of a nonzero byte is 1 follows
from two facts: raising to the power 256 is the identity, for squaring is additive; and 0 and 1 are the only
bytes equal to their squares. -/

namespace Sys2Proof.Machine

/-! ### Powers -/

/-- The product of `n` copies of `a`. -/
def power (a : Byte) (n : Nat) : Byte := (List.replicate n a).foldl mult 1#8

@[simp] theorem power_zero (a : Byte) : power a 0 = 1#8 := rfl

theorem power_succ (a : Byte) (n : Nat) : power a (n + 1) = mult (power a n) a := by
  simp [power, List.replicate_succ']

theorem power_one (a : Byte) : power a 1 = a := one_mult a

theorem one_power (n : Nat) : power 1#8 n = 1#8 := by
  induction n with
  | zero => rfl
  | succ n ih => rw [power_succ, ih, one_mult]

theorem power_add (a : Byte) (m n : Nat) : power a (m + n) = mult (power a m) (power a n) := by
  induction n with
  | zero => simp [mult_one]
  | succ n ih => rw [← Nat.add_assoc, power_succ, power_succ, ih, mult_assoc]

theorem mult_mult_mult_comm (a b c d : Byte) :
    mult (mult a b) (mult c d) = mult (mult a c) (mult b d) := by
  rw [mult_assoc, ← mult_assoc b, mult_comm b, mult_assoc c, ← mult_assoc]

theorem mult_power (a b : Byte) (n : Nat) : power (mult a b) n = mult (power a n) (power b n) := by
  induction n with
  | zero => simp [mult_one]
  | succ n ih => rw [power_succ, power_succ, power_succ, ih, mult_mult_mult_comm]

/-! ### The inverse as a power -/

/-- The loop started at powers of `a`: its squares are the powers `2k`, `4k`, ... -/
theorem inverseLoop_power (a : Byte) (n k m : Nat) :
    inverseLoop n (power a k) (power a m) = power a (m + k * (2 ^ (n + 1) - 2)) := by
  induction n generalizing k m with
  | zero => rfl
  | succ n ih =>
    have hexp : m + (k + k) + (k + k) * (2 ^ (n + 1) - 2) = m + k * (2 ^ (n + 1 + 1) - 2) := by
      have hpow : 2 ^ (n + 1 + 1) - 2 = 2 + 2 * (2 ^ (n + 1) - 2) := by
        have := Nat.one_lt_two_pow (n := n + 1) (by omega)
        omega
      rw [hpow]
      ring
    rw [inverseLoop, ← power_add, ← power_add, ih, hexp]

theorem inverse_eq_power (a : Byte) : inverse a = power a 254 := by
  simpa [inverse, power_one] using inverseLoop_power a 7 1 0

/-! ### The power 255 -/

/-- The two mixed terms of the square of a sum cancel. -/
theorem mult_self_xor (a b : Byte) : mult (a ^^^ b) (a ^^^ b) = mult a a ^^^ mult b b := by
  simp [mult_xor_left, mult_xor_right, mult_comm b a, BitVec.xor_assoc]

theorem power_two_pow_xor (a b : Byte) (n : Nat) :
    power (a ^^^ b) (2 ^ n) = power a (2 ^ n) ^^^ power b (2 ^ n) := by
  induction n with
  | zero => simp [power_one]
  | succ n ih => rw [Nat.pow_succ, Nat.mul_two, power_add, power_add, power_add, ih, mult_self_xor]

theorem xtime_eq_mult (a : Byte) : xtime a = mult a 2#8 :=
  calc xtime a = mult a (xtime 1#8) := by rw [mult_xtime_right, mult_one]
    _ = mult a 2#8 := rfl

/-- The power 256 is additive and fixes 2, the byte of x, so it fixes every byte. -/
theorem power_256 (a : Byte) : power a 256 = a := by
  have htwo : power 2#8 256 = 2#8 := by decide +kernel
  have hxtime : ∀ b, power (xtime b) 256 = xtime (power b 256) := fun b => by
    rw [xtime_eq_mult, mult_power, htwo, ← xtime_eq_mult]
  calc power a 256 = power (mult 1#8 a) 256 := by rw [one_mult]
    _ = mult (power 1#8 256) a := map_mult (f := (power · 256)) (power_two_pow_xor · · 8) hxtime 1#8 a
    _ = a := by rw [one_power, one_mult]

/-- No byte but 0 and 1 is its own square, for the polynomial of R101 is irreducible. -/
theorem eq_zero_or_one_of_mult_self {e : Byte} (h : mult e e = e) : e = 0#8 ∨ e = 1#8 := by
  revert e; decide +kernel

/-- The power 255 is its own square, and it is not 0, for `a` times it is `a`. -/
theorem power_255 {a : Byte} (ha : a ≠ 0#8) : power a 255 = 1#8 := by
  have hself : mult (power a 255) (power a 255) = power a 255 := by
    rw [← power_add, power_add a 256 254, power_256, mult_comm, ← power_succ]
  refine (eq_zero_or_one_of_mult_self hself).resolve_left fun hzero => ha ?_
  calc a = mult (power a 255) a := by rw [← power_succ, power_256]
    _ = 0#8 := by rw [hzero, mult_comm, mult_zero]

/-! ### The inverse -/

theorem mult_inverse {a : Byte} (ha : a ≠ 0#8) : mult a (inverse a) = 1#8 := by
  rw [inverse_eq_power, mult_comm, ← power_succ, power_255 ha]

theorem eq_inverse_of_mult_eq_one {a b : Byte} (ha : a ≠ 0#8) (h : mult a b = 1#8) : b = inverse a :=
  calc b = mult b (mult a (inverse a)) := by rw [mult_inverse ha, mult_one]
    _ = mult (mult a b) (inverse a) := by rw [← mult_assoc, mult_comm b]
    _ = inverse a := by rw [h, one_mult]

end Sys2Proof.Machine

open Sys2Proof.Machine

/-- Settles O19: a right inverse is unique, and the inverse's loop multiplies up the power 254. -/
theorem inverseIsTheUniqueInverse : Obligations.InverseIsTheUniqueInverse :=
  ⟨rfl, fun _ _ ha => ⟨eq_inverse_of_mult_eq_one ha, fun h => h ▸ mult_inverse ha⟩,
    fun a _ => inverse_eq_power a⟩

/-- Settles O20: the laws without an inverse come from linearity, the last from the power 255. -/
theorem gf8FieldLaws : Obligations.Gf8FieldLaws :=
  ⟨mult_zero, mult_one, mult_comm, mult_assoc, mult_xor_right, fun _ => mult_inverse⟩

end

