-- ==== Sys2Proof/Proofs/FieldCommands.lean ====
section
/-! PROOFS. The encoding line of a command from its row of the opcode map, and the results of the field
commands (R82 to R85, R110 to R115, R150, R151). -/

namespace Sys2Proof

open Safety Machine

/-! ### Encoding lines -/

@[simp] theorem opField_formatWord (f : Format) (op : Byte) (cmd : Word) :
    opField (formatWord f op cmd) = op := by
  cases f <;> simp [formatWord]

/-- No two rows of the opcode map have the same opcode (R82). -/
theorem opcodeMap_nodup : (opcodeMap.map Prod.fst).Nodup := by decide

/-- A word with a row's opcode is legal only if it matches that row's mask (R83, R85). -/
theorem legalCommand_eq_false {f : Format} {op : Byte} (hrow : (op, f) ∈ opcodeMap) {cmd : Word}
    (hop : opField cmd = op) (hmask : cmd &&& formatMask f ≠ op.setWidth 32) : legalCommand cmd = false := by
  rw [← Bool.not_eq_true, legalCommand_iff]
  rintro ⟨row, hmem, hcmd⟩
  have hsame : row.1 = op := by rw [← hop, hcmd, opField_formatWord]
  obtain rfl : row = (op, f) := List.inj_on_of_nodup_map opcodeMap_nodup hmem hrow hsame
  exact hmask ((and_formatMask_eq_iff f op cmd).2 hcmd)

/-- A command whose words are those of a row of the opcode map has that row's encoding line. -/
theorem hasEncoding_of_row {f : Format} {op : Byte} (hrow : (op, f) ∈ opcodeMap) {form : Word → Instr}
    (hform : ∀ cmd, encode (form cmd) = formatWord f op cmd) :
    HasEncoding (formatMask f) (op.setWidth 32) form := by
  intro cmd
  refine ⟨?_, fun hop hmask s din rest hhost => ?_⟩
  · rw [decode_eq_ok_iff, hform, and_formatMask_eq_iff, eq_comm]
  · have hrowop : opField cmd = op := by rw [hop, setWidth_eq_commandWord, opField_commandWord]
    exact step_of_illegal hhost (legalCommand_eq_false hrow hrowop hmask)

end Sys2Proof

namespace Sys2Proof.Machine

open Safety

/-- A command that writes DOUT and nothing else (R28, R273). -/
theorem complete_writeDout (v : Block) (s : State) :
    complete (writeDout v s) = .next (completedWith { s with dout := v }) := rfl

end Sys2Proof.Machine

open Sys2Proof Sys2Proof.Machine

/-- Settles O16: each command completes with its byte in DOUT, and its words are those of its row. -/
theorem gf8CommandResults : Obligations.Gf8CommandResults :=
  ⟨hasEncoding_of_row (f := .ab) (op := 0x10#8) (by decide) fun _ => rfl,
    hasEncoding_of_row (f := .a) (op := 0x11#8) (by decide) fun _ => rfl,
    hasEncoding_of_row (f := .ab) (op := 0x12#8) (by decide) fun _ => rfl,
    hasEncoding_of_row (f := .a) (op := 0x13#8) (by decide) fun _ => rfl,
    hasEncoding_of_row (f := .a) (op := 0x14#8) (by decide) fun _ => rfl,
    hasEncoding_of_row (f := .a) (op := 0x15#8) (by decide) fun _ => rfl,
    fun _ _ s => ⟨complete_writeDout _ s, complete_writeDout _ s, complete_writeDout _ s,
      complete_writeDout _ s, complete_writeDout _ s, complete_writeDout _ s⟩⟩

/-- Settles O17: the same for the sum and the product of ST and din. -/
theorem gf128CommandResults : Obligations.Gf128CommandResults :=
  ⟨hasEncoding_of_row (f := .n) (op := 0x18#8) (by decide) fun _ => rfl,
    hasEncoding_of_row (f := .n) (op := 0x19#8) (by decide) fun _ => rfl,
    fun s => ⟨complete_writeDout _ s, complete_writeDout _ s⟩⟩

end

