-- ==== Sys2Proof/Proofs/AesRounds.lean ====
section
/-! PROOFS. The S-box bit by bit and as a bijection, and the round transformations element by element
(R140 to R145). -/

namespace Sys2Proof.Machine

/-! ### The affine map -/

/-- A rotation right by `k` brings bit `i + k`, counted around the byte, to place `i`. -/
theorem getLsbD_rotateRight_byte (a : Byte) {k i : Nat} (hk : k < 8) (hi : i < 8) :
    (a.rotateRight k).getLsbD i = a.getLsbD ((i + k) % 8) := by
  rw [BitVec.getLsbD_rotateRight, Nat.mod_eq_of_lt hk, Bool.cond_decide]
  split_ifs with hwrap
  · rw [Nat.mod_eq_of_lt (by omega), Nat.add_comm]
  · have hpos : (i + k) % 8 = i - (8 - k) := by omega
    rw [hpos, decide_eq_true hi, Bool.true_and]

/-- R140, bit by bit. -/
theorem getLsbD_affine (a : Byte) {i : Nat} (hi : i < 8) :
    (affine a).getLsbD i =
      (a.getLsbD i ^^ a.getLsbD ((i + 4) % 8) ^^ a.getLsbD ((i + 5) % 8) ^^ a.getLsbD ((i + 6) % 8) ^^
        a.getLsbD ((i + 7) % 8) ^^ (0x63#8).getLsbD i) := by
  simp only [affine, BitVec.getLsbD_xor, getLsbD_rotateRight_byte a _ hi, Nat.reduceLT,
    Config.affineConstant]

/-- The affine map has order four, for its linear part is the sum of five rotations and the fourth power of that
sum is the identity. -/
theorem affine_iterate_four (a : Byte) : affine^[4] a = a := by
  revert a; decide +kernel

theorem affine_bijective : Function.Bijective affine :=
  Function.bijective_iff_has_inverse.2 ⟨affine^[3], affine_iterate_four, affine_iterate_four⟩

/-! ### The S-box -/

theorem inverse_zero : inverse 0#8 = 0#8 := rfl

/-- Inversion undoes itself: a nonzero byte is the inverse of its inverse, and 0 goes to 0. -/
theorem inverse_involutive : Function.Involutive inverse := by
  intro a
  by_cases ha : a = 0#8
  · rw [ha, inverse_zero, inverse_zero]
  · have hprod : mult a (inverse a) = 1#8 := mult_inverse ha
    have hne : inverse a ≠ 0#8 := fun h => by
      rw [h, mult_zero] at hprod
      exact absurd hprod (by decide)
    exact (eq_inverse_of_mult_eq_one hne (by rw [mult_comm, hprod])).symm

theorem sbox_bijective : Function.Bijective sbox :=
  affine_bijective.comp inverse_involutive.bijective

/-! ### SubBytes, ShiftRows and AddRoundKey -/

theorem byteAt_subBytes (s : Block) {n : Nat} (hn : n < 16) :
    byteAt (subBytes s) n = sbox (byteAt s n) :=
  byteAt_blockOf _ hn

theorem elem_shiftRows (s : Block) {r c : Nat} (hr : r < 4) (hc : c < 4) :
    elem (shiftRows s) r c = elem s r ((c + r) % 4) := by
  have hrow : (r + 4 * c) % 4 = r := by omega
  have hcol : (r + 4 * c) / 4 = c := by omega
  rw [elem, shiftRows, byteAt_blockOf _ (by omega), hrow, hcol]

theorem byteAt_addRoundKey (s k : Block) (n : Nat) :
    byteAt (addRoundKey s k) n = byteAt s n ^^^ byteAt k n :=
  BitVec.extractLsb'_xor

/-! ### MixColumns -/

/-- Multiplying by the matrix's factors 2 and 3 is doubling, and doubling and adding (R144). -/
theorem mult_two (a : Byte) : mult a 2#8 = xtime a := (xtime_eq_mult a).symm

theorem mult_three (a : Byte) : mult a 3#8 = xtime a ^^^ a :=
  calc mult a 3#8 = mult a 2#8 ^^^ mult a 1#8 := mult_xor_right a 2#8 1#8
    _ = xtime a ^^^ a := by rw [mult_two, mult_one]

/-- Each column is mixed by itself. -/
theorem col_mixColumns (s : Block) {c : Nat} (hc : c < 4) : col (mixColumns s) c = mixColumn (col s c) := by
  obtain ⟨h0, h1, h2, h3⟩ := col_ofCols (mixColumn (col s 0)) (mixColumn (col s 1)) (mixColumn (col s 2))
    (mixColumn (col s 3))
  interval_cases c
  · exact h0
  · exact h1
  · exact h2
  · exact h3

/-- Element `(r, c)` is the product of row `r` of the matrix and column `c`. -/
theorem elem_mixColumns (s : Block) {r c : Nat} (hr : r < 4) (hc : c < 4) :
    elem (mixColumns s) r c =
      mult (elem s 0 c) (mixCoefficient r 0) ^^^ mult (elem s 1 c) (mixCoefficient r 1) ^^^
        mult (elem s 2 c) (mixCoefficient r 2) ^^^ mult (elem s 3 c) (mixCoefficient r 3) := by
  rw [← wordByte_col _ hr hc, col_mixColumns s hc, wordByte_mixColumn _ hr, mixByte]
  iterate 4 rw [wordByte_col s (by decide) hc]

/-- The four sums of the pseudocode: the rows of the matrix, a factor 1 left out. -/
theorem elem_mixColumns_rows (s : Block) {c : Nat} (hc : c < 4) :
    elem (mixColumns s) 0 c = mult (elem s 0 c) 2#8 ^^^ mult (elem s 1 c) 3#8 ^^^ elem s 2 c ^^^ elem s 3 c ∧
    elem (mixColumns s) 1 c = elem s 0 c ^^^ mult (elem s 1 c) 2#8 ^^^ mult (elem s 2 c) 3#8 ^^^ elem s 3 c ∧
    elem (mixColumns s) 2 c = elem s 0 c ^^^ elem s 1 c ^^^ mult (elem s 2 c) 2#8 ^^^ mult (elem s 3 c) 3#8 ∧
    elem (mixColumns s) 3 c = mult (elem s 0 c) 3#8 ^^^ elem s 1 c ^^^ elem s 2 c ^^^ mult (elem s 3 c) 2#8 := by
  refine ⟨?_, ?_, ?_, ?_⟩ <;>
    (rw [elem_mixColumns s (by decide) hc]
     simp only [mixCoefficient, Config.mixMatrix, List.getD_cons_zero, List.getD_cons_succ, mult_one])

/-- The form with doubled bytes: in each of the four sums, write the factors 2 and 3 by doubling and
collect. -/
theorem elem_mixColumns_doubled (s : Block) {r c : Nat} (hr : r < 4) (hc : c < 4) :
    elem (mixColumns s) r c =
      xtime (elem s r c) ^^^ xtime (elem s ((r + 1) % 4) c) ^^^ elem s ((r + 1) % 4) c ^^^
        elem s ((r + 2) % 4) c ^^^ elem s ((r + 3) % 4) c := by
  obtain ⟨h0, h1, h2, h3⟩ := elem_mixColumns_rows s hc
  simp only [mult_two, mult_three] at h0 h1 h2 h3
  interval_cases r
  · simp only [h0, Nat.reduceAdd, Nat.reduceMod]; ac_rfl
  · simp only [h1, Nat.reduceAdd, Nat.reduceMod]; ac_rfl
  · simp only [h2, Nat.reduceAdd, Nat.reduceMod]; ac_rfl
  · simp only [h3, Nat.reduceAdd, Nat.reduceMod]; ac_rfl

end Sys2Proof.Machine

open Sys2Proof.Machine

/-- Settles O23: each rotation moves the bit its index names to place `i`. -/
theorem affineBitFormula : Obligations.AffineBitFormula := fun a _ hi => getLsbD_affine a hi

/-- Settles O24: the table by evaluating the S-box at each byte, the bijection from those of inversion and the
affine map. -/
theorem sboxTable : Obligations.SboxTable := by
  refine ⟨fun _ => rfl, ?_, sbox_bijective⟩
  decide +kernel

/-- Settles O25: the first two are built byte by byte, and AddRoundKey is an XOR, which acts on each byte. -/
theorem roundTransformsByElement : Obligations.RoundTransformsByElement := fun s k =>
  ⟨fun _ hn => byteAt_subBytes s hn, fun _ _ hr hc => elem_shiftRows s hr hc,
    fun n _ => byteAt_addRoundKey s k n⟩

/-- Settles O26: the product by a row of the matrix gives the four sums, and these the form with doubled
bytes. -/
theorem mixColumnsByMatrix : Obligations.MixColumnsByMatrix :=
  ⟨fun s _ _ hr hc => ⟨elem_mixColumns s hr hc, elem_mixColumns_doubled s hr hc⟩,
    fun s _ hc => elem_mixColumns_rows s hc⟩

end

