-- ==== Sys2Proof/Proofs/RoundCommands.lean ====
section
/-! PROOFS. The round-transform commands rewrite ST in place and copy it to DOUT; ADDRK checks its index, then
the key (R152 to R155). -/

namespace Sys2Proof.Machine

open Sys2Proof.Safety

/-- A command that writes ST and its copy in DOUT, and nothing else (R152 to R155, R273). -/
theorem complete_writeSt (v : Block) (s : State) :
    complete (writeSt v s) = .next (completedWith { s with st := v, dout := v }) := rfl

/-- The byte that names round key `i` (R155). -/
theorem toNat_roundIndex (i : Fin 11) : (BitVec.ofNat 8 i.val).toNat = i.val := by
  rw [BitVec.toNat_ofNat, Nat.mod_eq_of_lt (by omega)]

/-- ADDRK with an index that names a round key is left with one check, that of the key. -/
theorem exec_addRk_of_index {n : Byte} {i : Fin 11} (hi : n.toNat = i.val) (s : State) :
    exec (.addRk n) s = checked [keyCheck s] s (writeSt (addRoundKey s.st s.rk[i]) s) := by
  simp only [exec, execAddRk, (roundIndex_eq_some n i).2 hi]

theorem exec_addRk_pass {n : Byte} {i : Fin 11} (hi : n.toNat = i.val) {s : State}
    (hkey : s.status.kvalid = true) :
    exec (.addRk n) s = .next (completedWith { s with st := s.st ^^^ s.rk[i], dout := s.st ^^^ s.rk[i] }) := by
  rw [exec_addRk_of_index hi, checked_pass (by simpa [keyCheck_eq_none] using hkey)]
  rfl

theorem exec_addRk_noKey {n : Byte} (hn : n.toNat ≤ 10) {s : State} (hkey : s.status.kvalid = false) :
    exec (.addRk n) s = .next (failedWith 3 s) := by
  have hfail : firstFailure [keyCheck s] = some .noKey := by simp [keyCheck, hkey]
  rw [exec_addRk_of_index (i := ⟨n.toNat, by omega⟩) rfl, checked_fail hfail, failWith_eq_failedWith]
  rfl

theorem exec_addRk_badOperand {n : Byte} (hn : 10 < n.toNat) (s : State) :
    exec (.addRk n) s = .next (failedWith 2 s) := by
  have hform : (Instr.addRk n).wellFormed = false := by simpa [Instr.wellFormed] using hn
  rw [exec_of_badOperand (.inl hform), failWith_eq_failedWith]
  rfl

end Sys2Proof.Machine

open Sys2Proof Sys2Proof.Machine

/-- Settles O27: each command completes with the transform of ST in ST and DOUT, and its word is that of its
row. -/
theorem roundTransformResults : Obligations.RoundTransformResults :=
  ⟨hasEncoding_of_row (f := .n) (op := 0x20#8) (by decide) fun _ => rfl,
    hasEncoding_of_row (f := .n) (op := 0x21#8) (by decide) fun _ => rfl,
    hasEncoding_of_row (f := .n) (op := 0x22#8) (by decide) fun _ => rfl,
    fun s => ⟨complete_writeSt _ s, complete_writeSt _ s, complete_writeSt _ s⟩⟩

/-- Settles O28: the index is checked first, then the key, and with both the sum is written. -/
theorem addRkResult : Obligations.AddRkResult :=
  ⟨hasEncoding_of_row (f := .a) (op := 0x23#8) (by decide) fun _ => rfl,
    fun s => ⟨fun i => exec_addRk_pass (toNat_roundIndex i),
      fun _ hn => exec_addRk_badOperand hn s, fun _ hn => exec_addRk_noKey hn⟩⟩

end

