-- ==== Sys2Proof/Proofs/KeySchedule.lean ====
section
/-! PROOFS. RotWord, SubWord and Rcon by their bytes, and the expanded key by its recurrence (R180 to
R183). -/

namespace Sys2Proof.Machine

/-! ### RotWord, SubWord and Rcon -/

theorem rotWord_wordOf (a0 a1 a2 a3 : Byte) : rotWord (wordOf a0 a1 a2 a3) = wordOf a1 a2 a3 a0 := by
  simp only [rotWord, wordByte_wordOf]

theorem subWord_wordOf (a0 a1 a2 a3 : Byte) :
    subWord (wordOf a0 a1 a2 a3) = wordOf (sbox a0) (sbox a1) (sbox a2) (sbox a3) := by
  simp only [subWord, wordByte_wordOf]

/-- R182: the ten listed words are the doublings of 1. -/
theorem rcon_eq_repeated_xtime : ∀ j : Nat, j < 10 →
    rcon j = ((List.replicate j 0).foldl (fun x _ => xtime x) 0x01#8 ++ 0#24 : Word) := by
  decide +kernel

theorem toNat_rcon : ∀ j : Nat, j < 10 →
    (rcon j).toNat = [0x01, 0x02, 0x04, 0x08, 0x10, 0x20, 0x40, 0x80, 0x1B, 0x36].getD j 0 * 2 ^ 24 := by
  decide +kernel

/-! ### The expanded key -/

/-- `w` is the start of the expansion of `k`, oldest word first: the key's four words, then words that each
follow the loop of R183. -/
structure KeySchedule (k : Block) (w : List Word) : Prop where
  four_le_length : 4 ≤ w.length
  key_words : ∀ i < 4, w.getD i 0 = col k i
  recurrence : ∀ i, 4 ≤ i → i < w.length →
    w.getD i 0 = nextKeyWord i (w.getD (i - 1) 0) (w.getD (i - 4) 0)

/-- The loop starts with the key's words. -/
theorem keySchedule_key (k : Block) : KeySchedule k [col k 0, col k 1, col k 2, col k 3] where
  four_le_length := le_rfl
  key_words i hi := by interval_cases i <;> rfl
  recurrence i hi hlt := absurd hlt (Nat.not_lt.2 hi)

/-- One turn of the loop extends a schedule. -/
theorem KeySchedule.append_next {k : Block} {w : List Word} (h : KeySchedule k w) :
    KeySchedule k (w ++ [nextKeyWord w.length (w.getD (w.length - 1) 0) (w.getD (w.length - 4) 0)]) := by
  obtain ⟨hlen, hkey, hrec⟩ := h
  have hold : ∀ {j} (x : Word), j < w.length → (w ++ [x]).getD j 0 = w.getD j 0 :=
    fun x hj => List.getD_append w [x] 0 _ hj
  refine ⟨by simp; omega, fun i hi => ?_, fun i hi hlt => ?_⟩
  · rw [hold _ (by omega), hkey i hi]
  · have hle : i ≤ w.length := by simpa [Nat.lt_succ_iff] using hlt
    rw [hold _ (show i - 1 < w.length by omega), hold _ (show i - 4 < w.length by omega)]
    obtain hlt | rfl := hle.lt_or_eq
    · rw [hold _ hlt, hrec i hi hlt]
    · rw [List.getD_append_right _ _ _ _ le_rfl, Nat.sub_self, List.getD_cons_zero]

/-- `n` turns of the loop, which holds the newest word first. -/
theorem keySchedule_keyWordsLoop {k : Block} (n : Nat) {ws : List Word} (h : KeySchedule k ws.reverse) :
    KeySchedule k (keyWordsLoop n ws).reverse ∧ (keyWordsLoop n ws).length = ws.length + n := by
  induction n generalizing ws with
  | zero => exact ⟨h, rfl⟩
  | succ n ih =>
    have hlen : 4 ≤ ws.length := by simpa using h.four_le_length
    have hnext := h.append_next
    rw [List.length_reverse, List.getD_reverse _ (by omega), List.getD_reverse _ (by omega)] at hnext
    have hprev : ws.length - 1 - (ws.length - 1) = 0 := by omega
    have hfour : ws.length - 1 - (ws.length - 4) = 3 := by omega
    rw [hprev, hfour, ← List.reverse_cons] at hnext
    obtain ⟨hsched, hlength⟩ := ih hnext
    exact ⟨hsched, by rw [keyWordsLoop, hlength, List.length_cons]; omega⟩

theorem keySchedule_keyWords (k : Block) : KeySchedule k (keyWords k) :=
  (keySchedule_keyWordsLoop 40 (keySchedule_key k)).1

theorem length_keyWords (k : Block) : (keyWords k).length = 44 :=
  (List.length_reverse).trans (keySchedule_keyWordsLoop 40 (keySchedule_key k)).2

/-! ### The round keys -/

theorem col_roundKeyOf (ws : List Word) (i : Nat) {j : Nat} (hj : j < 4) :
    col (roundKeyOf ws i) j = ws.getD (4 * i + j) 0 := by
  obtain ⟨h0, h1, h2, h3⟩ := col_ofCols (ws.getD (4 * i) 0) (ws.getD (4 * i + 1) 0) (ws.getD (4 * i + 2) 0)
    (ws.getD (4 * i + 3) 0)
  interval_cases j
  · exact h0
  · exact h1
  · exact h2
  · exact h3

theorem getElem_keyExpansion (k : Block) (i : Fin 11) :
    (keyExpansion k)[i] = roundKeyOf (keyWords k) i.val := by
  fin_cases i <;> rfl

end Sys2Proof.Machine

open Sys2Proof.Machine

/-- Settles O29: every turn of the loop keeps what `KeySchedule` says of the words made so far. -/
theorem keyExpansionRecurrence : Obligations.KeyExpansionRecurrence := by
  refine ⟨fun a0 a1 a2 a3 => ⟨rotWord_wordOf a0 a1 a2 a3, subWord_wordOf a0 a1 a2 a3⟩,
    fun j hj => ⟨rcon_eq_repeated_xtime j hj, toNat_rcon j hj⟩, fun k => ?_⟩
  obtain ⟨-, hkey, hrec⟩ := keySchedule_keyWords k
  refine ⟨hkey, fun i hi hlt => ?_, fun i j hj => ?_⟩
  · exact hrec i hi (by rwa [length_keyWords])
  · rw [getElem_keyExpansion, col_roundKeyOf _ _ hj]

end

