-- ==== Sys2Proof/Proofs/BlockCipher.lean ====
section
/-! PROOFS. The cipher by its round states, and that each round transformation, so each round and the cipher,
is a bijection on blocks (R142 to R145, R184, R185). -/

namespace Sys2Proof.Machine

/-! ### Round states -/

/-- The state after round `n` (0 to 9) of the cipher (R184). -/
def roundState (p : Block) (rk : Vector Block 11) : Nat → Block
  | 0 => addRoundKey p rk[0]
  | n + 1 => cipherRound (roundState p rk n) (rk[n + 1]?.getD 0)

/-- Rounds 1 to 10 by their round key; the last is not one of the cipher's, which leaves MixColumns out. -/
theorem roundState_of_pos (p : Block) (rk : Vector Block 11) {i : Fin 11} (h : 1 ≤ i.val) :
    roundState p rk i.val = cipherRound (roundState p rk (i.val - 1)) rk[i] := by
  obtain ⟨n | n, hn⟩ := i
  · exact absurd h (Nat.not_succ_le_zero 0)
  · simp [roundState, hn]

/-- The cipher is round 10 on the state after round 9. -/
theorem cipher_eq_roundState (p : Block) (rk : Vector Block 11) :
    cipher p rk = addRoundKey (shiftRows (subBytes (roundState p rk 9))) rk[10] :=
  rfl

/-! ### The round transformations as bijections -/

/-- A block is determined by its State matrix. -/
theorem block_ext_elem {s t : Block} (h : ∀ r c : Nat, r < 4 → c < 4 → elem s r c = elem t r c) : s = t := by
  have hbyte : ∀ k < 16, byteAt s k = byteAt t k := fun k hk => by
    simpa [elem, Nat.mod_add_div] using h (k % 4) (k / 4) (by omega) (by omega)
  have hint : int128 s = int128 t := by
    rw [int128_eq_sum_byteAt, int128_eq_sum_byteAt]
    exact congrArg List.sum (List.map_congr_left fun k hk => by rw [hbyte k (List.mem_range.1 hk)])
  exact BitVec.eq_of_toNat_eq hint

theorem elem_subBytes (s : Block) {r c : Nat} (hr : r < 4) (hc : c < 4) :
    elem (subBytes s) r c = sbox (elem s r c) :=
  byteAt_subBytes s (by omega)

theorem subBytes_bijective : Function.Bijective subBytes := by
  refine Finite.injective_iff_bijective.1 fun s t hst => block_ext_elem fun r c hr hc => ?_
  apply sbox_bijective.injective
  rw [← elem_subBytes s hr hc, hst, elem_subBytes t hr hc]

/-- A map of order four is a bijection: three more turns undo one. -/
theorem bijective_of_iterate_four {α : Type} {f : α → α} (h : ∀ a, f^[4] a = a) : Function.Bijective f :=
  Function.bijective_iff_has_inverse.2 ⟨f^[3], h, h⟩

/-- Row `r` is rotated by `r` places each time, `4r` in all. -/
theorem shiftRows_iterate_four (s : Block) : shiftRows^[4] s = s := by
  refine block_ext_elem fun r c hr hc => ?_
  have hrot : ∀ m, elem (shiftRows^[m] s) r c = elem s r ((c + m * r) % 4) := fun m => by
    induction m generalizing s with
    | zero => simp [Nat.mod_eq_of_lt hc]
    | succ m ih =>
      rw [Function.iterate_succ_apply, ih, elem_shiftRows s hr (by omega)]
      congr 1
      rw [Nat.mod_add_mod, Nat.succ_mul, Nat.add_assoc]
  rw [hrot, Nat.add_mul_mod_self_left, Nat.mod_eq_of_lt hc]

theorem bitVec_xor_cancel_left {w : Nat} (x y : BitVec w) : x ^^^ (x ^^^ y) = y := by
  rw [← BitVec.xor_assoc, BitVec.xor_self, BitVec.zero_xor]

/-- The square of the matrix: 5 on the diagonal, 4 two places off it, 0 elsewhere. Written by elements of the
column of `s`, every other term occurs twice and cancels. -/
theorem elem_mixColumns_mixColumns (s : Block) {r c : Nat} (hr : r < 4) (hc : c < 4) :
    elem (mixColumns (mixColumns s)) r c =
      xtime (xtime (elem s r c ^^^ elem s ((r + 2) % 4) c)) ^^^ elem s r c := by
  have hrow : ∀ j, elem (mixColumns s) ((r + j) % 4) c =
      xtime (elem s ((r + j) % 4) c) ^^^ xtime (elem s ((r + (j + 1)) % 4) c) ^^^ elem s ((r + (j + 1)) % 4) c ^^^
        elem s ((r + (j + 2)) % 4) c ^^^ elem s ((r + (j + 3)) % 4) c := fun j => by
    simp only [elem_mixColumns_doubled s (Nat.mod_lt _ (by decide)) hc, Nat.mod_add_mod, Nat.add_assoc]
  have hfour : (r + 4) % 4 = r := by omega
  have hfive : (r + 5) % 4 = (r + 1) % 4 := by omega
  have hsix : (r + 6) % 4 = (r + 2) % 4 := by omega
  rw [elem_mixColumns_doubled _ hr hc, elem_mixColumns_doubled s hr hc, hrow 1, hrow 2, hrow 3]
  simp only [Nat.reduceAdd, hfour, hfive, hsix, xtime_xor]
  generalize elem s r c = a0, elem s ((r + 1) % 4) c = a1, elem s ((r + 2) % 4) c = a2,
    elem s ((r + 3) % 4) c = a3
  simp only [BitVec.xor_assoc, BitVec.xor_comm, bitVec_xor_left_comm, bitVec_xor_cancel_left]

/-- The fourth power of the matrix is the identity: in the square of the square the two 4s cancel. -/
theorem mixColumns_iterate_four (s : Block) : mixColumns^[4] s = s := by
  refine block_ext_elem fun r c hr hc => ?_
  have hfour : (r + 2 + 2) % 4 = r := by omega
  have hsum : elem (mixColumns (mixColumns s)) r c ^^^ elem (mixColumns (mixColumns s)) ((r + 2) % 4) c =
      elem s r c ^^^ elem s ((r + 2) % 4) c := by
    rw [elem_mixColumns_mixColumns s hr hc, elem_mixColumns_mixColumns s (Nat.mod_lt _ (by decide)) hc,
      Nat.mod_add_mod, hfour, BitVec.xor_comm (elem s ((r + 2) % 4) c) (elem s r c), BitVec.xor_assoc,
      bitVec_xor_left_comm (elem s r c), bitVec_xor_cancel_left]
  calc elem (mixColumns (mixColumns (mixColumns (mixColumns s)))) r c
      = xtime (xtime (elem s r c ^^^ elem s ((r + 2) % 4) c)) ^^^ elem (mixColumns (mixColumns s)) r c := by
        rw [elem_mixColumns_mixColumns _ hr hc, hsum]
    _ = elem s r c := by rw [elem_mixColumns_mixColumns s hr hc, bitVec_xor_cancel_left]

theorem addRoundKey_bijective (k : Block) : Function.Bijective (addRoundKey · k) :=
  Function.Involutive.bijective fun s => by
    rw [addRoundKey, addRoundKey, BitVec.xor_assoc, BitVec.xor_self, BitVec.xor_zero]

/-! ### The cipher as a bijection -/

theorem shiftRows_subBytes_bijective : Function.Bijective fun s => shiftRows (subBytes s) :=
  (bijective_of_iterate_four shiftRows_iterate_four).comp subBytes_bijective

theorem cipherRound_bijective (k : Block) : Function.Bijective (cipherRound · k) :=
  (addRoundKey_bijective k).comp
    ((bijective_of_iterate_four mixColumns_iterate_four).comp shiftRows_subBytes_bijective)

theorem roundState_bijective (rk : Vector Block 11) (n : Nat) : Function.Bijective (roundState · rk n) := by
  induction n with
  | zero => exact addRoundKey_bijective rk[0]
  | succ n ih => exact (cipherRound_bijective _).comp ih

theorem cipher_bijective (rk : Vector Block 11) : Function.Bijective fun p => cipher p rk := by
  simp only [cipher_eq_roundState]
  exact (addRoundKey_bijective rk[10]).comp (shiftRows_subBytes_bijective.comp (roundState_bijective rk 9))

/-- R185: the source's FIPS-197 vector. -/
theorem cipher_fips197 :
    cipher 0x3243f6a8885a308d313198a2e0370734#128 (keyExpansion 0x2b7e151628aed2a6abf7158809cf4f3c#128) =
      0x3925841d02dc09fbdc118597196a0b32#128 := by
  decide +kernel

end Sys2Proof.Machine

open Sys2Proof Sys2Proof.Machine

/-- Settles O30: the states are `roundState`, round by round. -/
theorem cipherRounds : Obligations.CipherRounds := fun p rk =>
  ⟨roundState p rk, rfl, fun _ hpos _ => roundState_of_pos p rk hpos, cipher_eq_roundState p rk⟩

/-- Settles O31: every round is a composition of bijections, so the cipher is; the vector by evaluating it. -/
theorem cipherIsBijective : Obligations.CipherIsBijective :=
  ⟨cipher_bijective, cipher_fips197⟩

end

