-- ==== Sys2Proof/Proofs/CipherCommands.lean ====
section
/-! PROOFS. KEY_EXPAND completes from every state; ENCRYPT makes one check, that of the key (R186, R187). -/

namespace Sys2Proof.Machine

open Sys2Proof.Safety

theorem exec_keyExpand (s : State) :
    exec .keyExpand s =
      .next (completedWith { s with rk := keyExpansion s.key, status := { s.status with kvalid := true } }) :=
  rfl

theorem exec_encrypt_pass {s : State} (hkey : s.status.kvalid = true) :
    exec .encrypt s = .next (completedWith { s with dout := cipher s.din s.rk }) := by
  have hpass : ∀ c ∈ [keyCheck s], c = none := by simpa [keyCheck_eq_none] using hkey
  exact checked_pass hpass s _

theorem exec_encrypt_noKey {s : State} (hkey : s.status.kvalid = false) :
    exec .encrypt s = .next (failedWith 3 s) := by
  have hfail : firstFailure [keyCheck s] = some .noKey := by simp [keyCheck, hkey]
  exact (checked_fail hfail s _).trans (congrArg _ (failWith_eq_failedWith .noKey s))

end Sys2Proof.Machine

open Sys2Proof Sys2Proof.Machine

/-- Settles O32: the command has no check, and its word is that of its row of the opcode map. -/
theorem keyExpandResult : Obligations.KeyExpandResult :=
  ⟨hasEncoding_of_row (f := .n) (op := 0x28#8) (by decide) fun _ => rfl, exec_keyExpand⟩

/-- Settles O33: KVALID decides the command's one check. -/
theorem encryptResult : Obligations.EncryptResult :=
  ⟨hasEncoding_of_row (f := .n) (op := 0x29#8) (by decide) fun _ => rfl,
    fun _ => ⟨exec_encrypt_pass, exec_encrypt_noKey⟩⟩

end

