-- ==== Sys2Proof/Proofs/CounterBlocks.lean ====
section
/-! PROOFS. Counter blocks and the length block are appended from two parts, and each part is read back (R200,
R220). -/

namespace Sys2Proof.Machine

/-! ### Counter blocks -/

/-- A block is its bytes 0..11 and its bytes 12..15. -/
theorem high96_append_low32 (b : Block) : high96 b ++ low32 b = b :=
  BitVec.extractLsb'_append_extractLsb'

/-- Bytes 0..11 of a block do not depend on its last 32 bits. -/
theorem byteAt_append (hi : BitVec 96) (lo lo' : Word) {k : Nat} (hk : k < 12) :
    byteAt (hi ++ lo) k = byteAt (hi ++ lo') k := by
  have hplace : 32 ≤ 120 - 8 * k := by omega
  simp only [byteAt, BitVec.extractLsb'_append_eq_of_le hplace]

theorem byteAt_inc (b : Block) (n : Nat) {k : Nat} (hk : k < 12) : byteAt (inc b n) k = byteAt b k :=
  (byteAt_append _ _ (low32 b) hk).trans (congrArg (byteAt · k) (high96_append_low32 b))

theorem low32_inc (b : Block) (n : Nat) : low32 (inc b n) = BitVec.ofNat 32 ((low32 b).toNat + n) :=
  BitVec.extractLsb'_append_eq_right

theorem toNat_low32_inc (b : Block) (n : Nat) :
    (low32 (inc b n)).toNat = ((low32 b).toNat + n) % 2 ^ 32 := by
  rw [low32_inc, BitVec.toNat_ofNat]

theorem inc_zero (b : Block) : inc b 0 = b := by
  simp [inc, high96_append_low32]

/-! ### The length block -/

/-- A block count below 2^32 gives a bit length that fits 64 bits. -/
theorem toNat_bitLength {n : Nat} (hn : n < 2 ^ 32) : (BitVec.ofNat 64 (n * 128)).toNat = n * 128 :=
  (BitVec.toNat_ofNat _ _).trans (Nat.mod_eq_of_lt (by omega))

theorem top64_lenblock {a : Nat} (ha : a < 2 ^ 32) (c : Nat) : top64 (lenblock a c) = a * 128 :=
  (congrArg BitVec.toNat BitVec.extractLsb'_append_eq_left).trans (toNat_bitLength ha)

theorem bottom64_lenblock (a : Nat) {c : Nat} (hc : c < 2 ^ 32) : bottom64 (lenblock a c) = c * 128 :=
  (congrArg BitVec.toNat BitVec.extractLsb'_append_eq_right).trans (toNat_bitLength hc)

end Sys2Proof.Machine

open Sys2Proof.Machine

/-- Settles O34: `inc` replaces the low word of its block, and the two bit lengths fit their halves. -/
theorem counterAndLengthBlocks : Obligations.CounterAndLengthBlocks :=
  ⟨fun b n _ => ⟨fun _ hk => byteAt_inc b n hk, toNat_low32_inc b n⟩, inc_zero,
    fun a c ha hc => ⟨top64_lenblock ha c, bottom64_lenblock a hc⟩⟩

end

