-- ==== Sys2Proof/Proofs/CheckOrder.lean ====
section
/-! PROOFS. The first failing check of a command, found by going past the checks that pass, and what the command
then answers (R272, R273, R275). -/

namespace Sys2Proof.Machine

open Sys2Proof.Safety

/-! ### Each check where it fails -/

theorem failIf_of_true {bad : Bool} (h : bad = true) (e : ErrorCode) : failIf bad e = some e := if_pos h

theorem keyCheck_fail {s : State} (h : s.status.kvalid = false) : keyCheck s = some .noKey :=
  failIf_of_true (by rw [h]; rfl) _

theorem phaseCheck_fail {modes : List Mode} {s : State} (h : s.status.mode ∉ modes) :
    phaseCheck modes s = some .phase := failIf_of_true (decide_eq_true h) _

theorem ivCheck_fail {s : State} (h : s.iv ≠ s.liv) : ivCheck s = some .ivMismatch :=
  failIf_of_true (decide_eq_true h) _

theorem commitCheck_fail {s : State} (h : Config.keyCommit s.key ≠ s.kc) :
    commitCheck s = some .keyMismatch := failIf_of_true (decide_eq_true h) _

theorem counterCheck_fail {s : State} (h : s.ctrin.toNat ≠ s.ctr.toNat + 1) :
    counterCheck s = some .counterMismatch := failIf_of_true (decide_eq_true h) _

theorem outputCheck_fail {v : Bool} {out : Block} {s : State} (hv : v = true) (h : out ≠ s.exp) :
    outputCheck v out s = some .outputMismatch :=
  failIf_of_true (Bool.and_eq_true_iff.2 ⟨hv, decide_eq_true h⟩) _

/-! ### The first failing check -/

theorem firstFailure_of_fail {c : Option ErrorCode} {e : ErrorCode} (h : c = some e)
    (cs : List (Option ErrorCode)) : firstFailure (c :: cs) = some e := by
  rw [h, firstFailure_some_cons]

theorem firstFailure_singleton (c : Option ErrorCode) : firstFailure [c] = c := by cases c <;> rfl

section Past

variable {cs : List (Option ErrorCode)} {r : Option ErrorCode} {s : State}

theorem firstFailure_of_pass {c : Option ErrorCode} (h : c = none) (hcs : firstFailure cs = r) :
    firstFailure (c :: cs) = r := by
  rw [h, firstFailure_none_cons, hcs]

theorem firstFailure_past_key (h : s.status.kvalid = true) (hcs : firstFailure cs = r) :
    firstFailure (keyCheck s :: cs) = r := firstFailure_of_pass ((keyCheck_eq_none s).2 h) hcs

theorem firstFailure_past_phase {modes : List Mode} (h : s.status.mode ∈ modes) (hcs : firstFailure cs = r) :
    firstFailure (phaseCheck modes s :: cs) = r := firstFailure_of_pass ((phaseCheck_eq_none modes s).2 h) hcs

theorem firstFailure_past_iv (h : s.iv = s.liv) (hcs : firstFailure cs = r) :
    firstFailure (ivCheck s :: cs) = r := firstFailure_of_pass ((ivCheck_eq_none s).2 h) hcs

theorem firstFailure_past_commit (h : Config.keyCommit s.key = s.kc) (hcs : firstFailure cs = r) :
    firstFailure (commitCheck s :: cs) = r := firstFailure_of_pass ((commitCheck_eq_none s).2 h) hcs

theorem firstFailure_past_counter (h : s.ctrin.toNat = s.ctr.toNat + 1) (hcs : firstFailure cs = r) :
    firstFailure (counterCheck s :: cs) = r := firstFailure_of_pass ((counterCheck_eq_none s).2 h) hcs

end Past

/-! ### How a command with no bad operand ends -/

/-- It completes with its writes if every check passes. -/
theorem exec_of_pass {i : Instr} {s : State} (hop : operandCheck i s = none)
    (h : firstFailure (stateChecks i s) = none) : exec i s = .next (completedWith (commandWrites i s)) := by
  rw [exec_eq_checked, checked, firstFailure_of_pass hop h]
  rfl

/-- It fails with the code of its first failing check. -/
theorem exec_of_fail (i : Instr) (s : State) {e : ErrorCode} (hop : operandCheck i s = none)
    (h : firstFailure (stateChecks i s) = some e) :
    exec i s = .next (failedWith (errorNumber e).toNat s) := by
  rw [exec_eq_checked, checked_fail (firstFailure_of_pass hop h), failWith_eq_failedWith]

end Sys2Proof.Machine
end

