-- ==== Sys2Proof/Proofs/CtrCommands.lean ====
section
/-! PROOFS. CTR_BASE and CTR_STEP: the checks they make, in order, and what they write if all pass (R201,
R202). -/

namespace Sys2Proof.Machine

open Sys2Proof.Safety

variable {v : Bool} {s : State}

/-! ### CTR_BASE -/

/-- With a key, only the verify check is left (R201). -/
theorem firstFailure_ctrBase (hkey : s.status.kvalid = true) :
    firstFailure (stateChecks (.ctrBase v) s) = outputCheck v (counterModeBlock s.iv 0 s) s :=
  firstFailure_past_key hkey (firstFailure_singleton _)

/-! ### CTR_STEP -/

/-- Where the step continues the open chain, only the verify check is left (R202). -/
theorem firstFailure_ctrStep (hkey : s.status.kvalid = true) (hmode : s.status.mode = .ctr) (hiv : s.iv = s.liv)
    (hcommit : Config.keyCommit s.key = s.kc) (hcounter : s.ctrin.toNat = s.ctr.toNat + 1) :
    firstFailure (stateChecks (.ctrStep v) s) =
      outputCheck v (counterModeBlock s.liv s.ctrin.toNat s) s :=
  firstFailure_past_key hkey <| firstFailure_past_phase (List.mem_singleton.2 hmode) <|
    firstFailure_past_iv hiv <| firstFailure_past_commit hcommit <| firstFailure_past_counter hcounter <|
    firstFailure_singleton _

theorem exec_ctrStep_noKey (hkey : s.status.kvalid = false) :
    exec (.ctrStep v) s = .next (failedWith 3 s) :=
  exec_of_fail (.ctrStep v) s rfl <| firstFailure_of_fail (keyCheck_fail hkey) _

theorem exec_ctrStep_phase (hkey : s.status.kvalid = true) (hmode : s.status.mode ≠ .ctr) :
    exec (.ctrStep v) s = .next (failedWith 4 s) :=
  exec_of_fail (.ctrStep v) s rfl <| firstFailure_past_key hkey <|
    firstFailure_of_fail (phaseCheck_fail (mt List.mem_singleton.1 hmode)) _

theorem exec_ctrStep_ivMismatch (hkey : s.status.kvalid = true) (hmode : s.status.mode = .ctr)
    (hiv : s.iv ≠ s.liv) : exec (.ctrStep v) s = .next (failedWith 6 s) :=
  exec_of_fail (.ctrStep v) s rfl <| firstFailure_past_key hkey <|
    firstFailure_past_phase (List.mem_singleton.2 hmode) <| firstFailure_of_fail (ivCheck_fail hiv) _

theorem exec_ctrStep_keyMismatch (hkey : s.status.kvalid = true) (hmode : s.status.mode = .ctr)
    (hiv : s.iv = s.liv) (hcommit : Config.keyCommit s.key ≠ s.kc) :
    exec (.ctrStep v) s = .next (failedWith 7 s) :=
  exec_of_fail (.ctrStep v) s rfl <| firstFailure_past_key hkey <|
    firstFailure_past_phase (List.mem_singleton.2 hmode) <| firstFailure_past_iv hiv <|
    firstFailure_of_fail (commitCheck_fail hcommit) _

theorem exec_ctrStep_counterMismatch (hkey : s.status.kvalid = true) (hmode : s.status.mode = .ctr)
    (hiv : s.iv = s.liv) (hcommit : Config.keyCommit s.key = s.kc)
    (hcounter : s.ctrin.toNat ≠ s.ctr.toNat + 1) : exec (.ctrStep v) s = .next (failedWith 9 s) :=
  exec_of_fail (.ctrStep v) s rfl <| firstFailure_past_key hkey <|
    firstFailure_past_phase (List.mem_singleton.2 hmode) <| firstFailure_past_iv hiv <|
    firstFailure_past_commit hcommit <| firstFailure_of_fail (counterCheck_fail hcounter) _

end Sys2Proof.Machine

open Sys2Proof Sys2Proof.Machine

/-- Settles O35: the key check, then the verify check on the block of counter 0. -/
theorem ctrBaseResult : Obligations.CtrBaseResult := by
  refine ⟨hasEncoding_of_row (f := .v) (op := 0x30#8) (by decide) fun _ => rfl, ?_⟩
  rintro v s c rfl
  exact ⟨fun hkey hout => exec_of_pass rfl
      ((firstFailure_ctrBase hkey).trans ((outputCheck_eq_none v _ s).2 hout)),
    fun hkey => exec_of_fail (.ctrBase v) s rfl (firstFailure_of_fail (keyCheck_fail hkey) _),
    fun hkey hv hout => exec_of_fail (.ctrBase v) s rfl
      ((firstFailure_ctrBase hkey).trans (outputCheck_fail hv hout))⟩

/-- Settles O36: five checks say whether the step continues the open chain, then the verify check is made on the
block of counter CTRIN; the first that fails is reported. -/
theorem ctrStepResult : Obligations.CtrStepResult := by
  refine ⟨hasEncoding_of_row (f := .v) (op := 0x31#8) (by decide) fun _ => rfl, ?_⟩
  rintro v s c rfl
  exact ⟨fun hkey hmode hiv hcommit hcounter hout => exec_of_pass rfl
      ((firstFailure_ctrStep hkey hmode hiv hcommit hcounter).trans ((outputCheck_eq_none v _ s).2 hout)),
    exec_ctrStep_noKey, exec_ctrStep_phase, exec_ctrStep_ivMismatch, exec_ctrStep_keyMismatch,
    exec_ctrStep_counterMismatch,
    fun hkey hmode hiv hcommit hcounter hv hout => exec_of_fail (.ctrStep v) s rfl
      ((firstFailure_ctrStep hkey hmode hiv hcommit hcounter).trans (outputCheck_fail hv hout))⟩

end

