-- ==== Sys2Proof/Proofs/GcmCommands.lean ====
section
/-! PROOFS. The GCM commands: the checks each makes before gcm_check, gcm_check itself once for the three commands
that make it, and what they write if all pass (R221, R223 to R226). -/

namespace Sys2Proof.Machine

open Sys2Proof.Safety

variable {v : Bool} {s : State}

/-! ### gcm_check -/

theorem hCheck_fail (h : cipher 0#128 s.rk ≠ s.h) : hCheck s = some .hMismatch :=
  failIf_of_true (decide_eq_true h) _

theorem firstFailure_past_gcmChecks (hiv : s.iv = s.liv) (hcommit : Config.keyCommit s.key = s.kc)
    (hh : cipher 0#128 s.rk = s.h) {cs : List (Option ErrorCode)} {r : Option ErrorCode}
    (hcs : firstFailure cs = r) : firstFailure (gcmChecks s ++ cs) = r :=
  firstFailure_past_iv hiv <| firstFailure_past_commit hcommit <|
    firstFailure_of_pass ((hCheck_eq_none s).2 hh) hcs

section GcmCheck

/-! A command whose checks pass up to gcm_check fails as gcm_check does, whatever checks `cs` it makes after it. -/

variable {i : Instr} {cs : List (Option ErrorCode)}

theorem exec_gcmChecks_ivMismatch (hop : operandCheck i s = none)
    (hbefore : firstFailure (stateChecks i s) = firstFailure (gcmChecks s ++ cs)) (hiv : s.iv ≠ s.liv) :
    exec i s = .next (failedWith 6 s) :=
  exec_of_fail i s hop <| hbefore.trans <| firstFailure_of_fail (ivCheck_fail hiv) _

theorem exec_gcmChecks_keyMismatch (hop : operandCheck i s = none)
    (hbefore : firstFailure (stateChecks i s) = firstFailure (gcmChecks s ++ cs)) (hiv : s.iv = s.liv)
    (hcommit : Config.keyCommit s.key ≠ s.kc) : exec i s = .next (failedWith 7 s) :=
  exec_of_fail i s hop <| hbefore.trans <| firstFailure_past_iv hiv <|
    firstFailure_of_fail (commitCheck_fail hcommit) _

theorem exec_gcmChecks_hMismatch (hop : operandCheck i s = none)
    (hbefore : firstFailure (stateChecks i s) = firstFailure (gcmChecks s ++ cs)) (hiv : s.iv = s.liv)
    (hcommit : Config.keyCommit s.key = s.kc) (hh : cipher 0#128 s.rk ≠ s.h) :
    exec i s = .next (failedWith 8 s) :=
  exec_of_fail i s hop <| hbefore.trans <| firstFailure_past_iv hiv <| firstFailure_past_commit hcommit <|
    firstFailure_of_fail (hCheck_fail hh) _

end GcmCheck

/-! ### The checks before gcm_check -/

theorem aadLimitCheck_fail (h : s.acnt.toNat = 4294967295) : aadLimitCheck s = some .limit :=
  failIf_of_true (decide_eq_true h) _

theorem encLimitCheck_fail (h : 4294967294 ≤ s.ccnt.toNat) : encLimitCheck s = some .limit :=
  failIf_of_true (decide_eq_true h) _

/-- R224: GCM_AAD ends with gcm_check. -/
theorem firstFailure_gcmAad (hkey : s.status.kvalid = true) (hmode : s.status.mode = .gcmAad)
    (hlimit : s.acnt.toNat ≠ 4294967295) :
    firstFailure (stateChecks .gcmAad s) = firstFailure (gcmChecks s ++ []) :=
  firstFailure_past_key hkey <| firstFailure_past_phase (List.mem_singleton.2 hmode) <|
    firstFailure_of_pass ((aadLimitCheck_eq_none s).2 hlimit) rfl

/-- R225: GCM_ENC goes on to gcm_check and the verify check. -/
theorem firstFailure_gcmEnc (hkey : s.status.kvalid = true)
    (hmode : s.status.mode = .gcmAad ∨ s.status.mode = .gcmEnc) (hlimit : s.ccnt.toNat < 4294967294) :
    firstFailure (stateChecks (.gcmEnc v) s) =
      firstFailure (gcmChecks s ++ [outputCheck v (counterModeBlock s.liv (s.ccnt.toNat + 1) s) s]) :=
  firstFailure_past_key hkey <| firstFailure_past_phase (List.mem_pair.2 hmode) <|
    firstFailure_of_pass ((encLimitCheck_eq_none s).2 hlimit) rfl

/-- R226: GCM_FINAL goes on to gcm_check and the verify check. -/
theorem firstFailure_gcmFinal (hkey : s.status.kvalid = true)
    (hmode : s.status.mode = .gcmAad ∨ s.status.mode = .gcmEnc) :
    firstFailure (stateChecks (.gcmFinal v) s) =
      firstFailure (gcmChecks s ++ [outputCheck v
        (ghashFold s.h s.tag (lenblock s.acnt.toNat s.ccnt.toNat) ^^^ cipher s.liv s.rk) s]) :=
  firstFailure_past_key hkey <| firstFailure_past_phase (List.mem_pair.2 hmode) rfl

/-- Neither of the two modes that keep a chain open (R222). -/
theorem mode_notMem_openModes (haad : s.status.mode ≠ .gcmAad) (henc : s.status.mode ≠ .gcmEnc) :
    s.status.mode ∉ [Mode.gcmAad, .gcmEnc] := fun h => (List.mem_pair.1 h).elim haad henc

end Sys2Proof.Machine

open Sys2Proof Sys2Proof.Machine

/-- Settles O39: KVALID decides the command's one check. -/
theorem gcmSetupResult : Obligations.GcmSetupResult :=
  ⟨hasEncoding_of_row (f := .n) (op := 0x40#8) (by decide) fun _ => rfl, fun s =>
    ⟨fun hkey => exec_of_pass rfl (firstFailure_past_key hkey firstFailure_nil),
      fun hkey => exec_of_fail .gcmSetup s rfl (firstFailure_of_fail (keyCheck_fail hkey) _)⟩⟩

/-- Settles O40: the checks of the key, MODE and ACNT, then gcm_check; the first that fails is reported. -/
theorem gcmAadResult : Obligations.GcmAadResult := by
  refine ⟨hasEncoding_of_row (f := .n) (op := 0x41#8) (by decide) fun _ => rfl, fun s => ?_⟩
  exact ⟨fun hkey hmode hlimit hiv hcommit hh => exec_of_pass rfl <|
      (firstFailure_gcmAad hkey hmode hlimit).trans <|
      firstFailure_past_gcmChecks hiv hcommit hh firstFailure_nil,
    fun hkey => exec_of_fail .gcmAad s rfl (firstFailure_of_fail (keyCheck_fail hkey) _),
    fun hkey hmode => exec_of_fail .gcmAad s rfl <| firstFailure_past_key hkey <|
      firstFailure_of_fail (phaseCheck_fail (mt List.mem_singleton.1 hmode)) _,
    fun hkey hmode hlimit => exec_of_fail .gcmAad s rfl <| firstFailure_past_key hkey <|
      firstFailure_past_phase (List.mem_singleton.2 hmode) <|
      firstFailure_of_fail (aadLimitCheck_fail hlimit) _,
    fun hkey hmode hlimit => exec_gcmChecks_ivMismatch rfl (firstFailure_gcmAad hkey hmode hlimit),
    fun hkey hmode hlimit => exec_gcmChecks_keyMismatch rfl (firstFailure_gcmAad hkey hmode hlimit),
    fun hkey hmode hlimit => exec_gcmChecks_hMismatch rfl (firstFailure_gcmAad hkey hmode hlimit)⟩

/-- Settles O41: the checks of the key, MODE and CCNT, then gcm_check, then the verify check on the block of
counter CCNT + 1; the first that fails is reported. -/
theorem gcmEncResult : Obligations.GcmEncResult := by
  refine ⟨hasEncoding_of_row (f := .v) (op := 0x42#8) (by decide) fun _ => rfl, ?_⟩
  rintro v s c rfl
  exact ⟨fun hkey hmode hlimit hiv hcommit hh hout => exec_of_pass rfl <|
      (firstFailure_gcmEnc hkey hmode hlimit).trans <| firstFailure_past_gcmChecks hiv hcommit hh <|
      (firstFailure_singleton _).trans ((outputCheck_eq_none v _ s).2 hout),
    fun hkey => exec_of_fail (.gcmEnc v) s rfl (firstFailure_of_fail (keyCheck_fail hkey) _),
    fun hkey haad henc => exec_of_fail (.gcmEnc v) s rfl <| firstFailure_past_key hkey <|
      firstFailure_of_fail (phaseCheck_fail (mode_notMem_openModes haad henc)) _,
    fun hkey hmode hlimit => exec_of_fail (.gcmEnc v) s rfl <| firstFailure_past_key hkey <|
      firstFailure_past_phase (List.mem_pair.2 hmode) <| firstFailure_of_fail (encLimitCheck_fail hlimit) _,
    fun hkey hmode hlimit => exec_gcmChecks_ivMismatch rfl (firstFailure_gcmEnc hkey hmode hlimit),
    fun hkey hmode hlimit => exec_gcmChecks_keyMismatch rfl (firstFailure_gcmEnc hkey hmode hlimit),
    fun hkey hmode hlimit => exec_gcmChecks_hMismatch rfl (firstFailure_gcmEnc hkey hmode hlimit),
    fun hkey hmode hlimit hiv hcommit hh hv hout => exec_of_fail (.gcmEnc v) s rfl <|
      (firstFailure_gcmEnc hkey hmode hlimit).trans <| firstFailure_past_gcmChecks hiv hcommit hh <|
      firstFailure_of_fail (outputCheck_fail hv hout) _⟩

/-- Settles O42: the checks of the key and MODE, then gcm_check, then the verify check on the tag; the first that
fails is reported. -/
theorem gcmFinalResult : Obligations.GcmFinalResult := by
  refine ⟨hasEncoding_of_row (f := .v) (op := 0x43#8) (by decide) fun _ => rfl, ?_⟩
  rintro v s m rfl
  exact ⟨fun hkey hmode hiv hcommit hh hout => exec_of_pass rfl <|
      (firstFailure_gcmFinal hkey hmode).trans <| firstFailure_past_gcmChecks hiv hcommit hh <|
      (firstFailure_singleton _).trans ((outputCheck_eq_none v _ s).2 hout),
    fun hkey => exec_of_fail (.gcmFinal v) s rfl (firstFailure_of_fail (keyCheck_fail hkey) _),
    fun hkey haad henc => exec_of_fail (.gcmFinal v) s rfl <| firstFailure_past_key hkey <|
      firstFailure_of_fail (phaseCheck_fail (mode_notMem_openModes haad henc)) _,
    fun hkey hmode => exec_gcmChecks_ivMismatch rfl (firstFailure_gcmFinal hkey hmode),
    fun hkey hmode => exec_gcmChecks_keyMismatch rfl (firstFailure_gcmFinal hkey hmode),
    fun hkey hmode => exec_gcmChecks_hMismatch rfl (firstFailure_gcmFinal hkey hmode),
    fun hkey hmode hiv hcommit hh hv hout => exec_of_fail (.gcmFinal v) s rfl <|
      (firstFailure_gcmFinal hkey hmode).trans <| firstFailure_past_gcmChecks hiv hcommit hh <|
      firstFailure_of_fail (outputCheck_fail hv hout) _⟩

end

