-- ==== Sys2Proof/Proofs/HostCommands.lean ====
section
/-! PROOFS. NOP and CLRERR complete from every state; RD and WR complete if the register-number space gives them a
register to read or a write to make, and fail with BAD_OPERAND otherwise (R250 to R253). -/

namespace Sys2Proof.Machine

open Sys2Proof.Safety

theorem exec_nop (s : State) : exec .nop s = .next (completedWith s) := rfl

theorem exec_clrerr (s : State) :
    exec .clrerr s = .next { s with status := { s.status with serr := false, ecode := 0#8, lerr := false } } :=
  rfl

/-- A bad operand fails with code 2 (R270, R272). -/
theorem exec_of_badOperand_failedWith {i : Instr} {s : State}
    (h : i.wellFormed = false ∨ (i = .wr 0x04#8 ∧ high96 s.din ≠ 0#96)) :
    exec i s = .next (failedWith 2 s) :=
  (exec_of_badOperand h).trans (congrArg _ (failWith_eq_failedWith .badOperand s))

/-! ### RD -/

/-- RD of a number that names `r` copies `r`, as it stands before the command (R252). -/
theorem exec_rd_of_reg {n : Byte} (r : Reg) (hn : regOfNumber n = some r) (s : State) :
    exec (.rd n) s = .next (completedWith { s with dout := readReg r s }) := by
  simp only [exec, execRd, hn, complete_writeDout]

/-- The numbers of the round-key file are 0x10 to 0x1A (R22). -/
theorem regOfNumber_rk (i : Fin 11) : regOfNumber (BitVec.ofNat 8 (0x10 + i.val)) = some (.rk i) := by
  revert i; decide

/-- The two gaps in the register-number space (R22). -/
theorem readableNumber_eq_false {n : Byte} (hn : n = 0x0F#8 ∨ 0x1B ≤ n.toNat) : readableNumber n = false := by
  obtain rfl | hn := hn
  · rfl
  · simp only [readableNumber, Bool.or_eq_false_iff, Bool.and_eq_false_iff, decide_eq_false_iff_not]
    omega

/-! ### WR -/

/-- WR completes with the write its number stands for (R253). -/
theorem exec_wr_of_ok {n : Byte} {s t : State} (ht : writeReg n s.din s = .ok t) :
    exec (.wr n) s = .next (completedWith t) := by
  simp only [exec, execWr, ht]
  rfl

/-- CTRIN takes a block whose bytes 0 to 11 are zero (R253). -/
theorem writeReg_ctrin {v : Block} (hv : high96 v = 0#96) (s : State) :
    writeReg 0x04#8 v s = .ok { s with ctrin := low32 v } := if_pos hv

/-- The numbers above those of the five host-writable registers (R253). -/
theorem writableNumber_eq_false {n : Byte} (hn : 0x04 < n.toNat) : writableNumber n = false :=
  decide_eq_false (Nat.not_le.2 hn)

end Sys2Proof.Machine

open Sys2Proof Sys2Proof.Machine

/-- Settles O12: the command has no check and no write, and its word is that of its row. -/
theorem nopResult : Obligations.NopResult :=
  ⟨hasEncoding_of_row (f := .n) (op := 0x00#8) (by decide) fun _ => rfl, exec_nop⟩

/-- Settles O13: the command has no check and writes SERR and ECODE, and its word is that of its row. -/
theorem clrerrResult : Obligations.ClrerrResult :=
  ⟨hasEncoding_of_row (f := .n) (op := 0x01#8) (by decide) fun _ => rfl, exec_clrerr⟩

/-- Settles O14: each number is looked up in the register-number space, and the numbers in its gaps are bad
operands. -/
theorem rdResult : Obligations.RdResult :=
  ⟨hasEncoding_of_row (f := .a) (op := 0x02#8) (by decide) fun _ => rfl,
    fun s => ⟨exec_rd_of_reg .key rfl s, exec_rd_of_reg .iv rfl s, exec_rd_of_reg .st rfl s,
      exec_rd_of_reg .exp rfl s, exec_rd_of_reg .ctrin rfl s, exec_rd_of_reg .dout rfl s,
      exec_rd_of_reg .status rfl s, exec_rd_of_reg .liv rfl s, exec_rd_of_reg .kc rfl s,
      exec_rd_of_reg .cc rfl s, exec_rd_of_reg .ctr rfl s, exec_rd_of_reg .h rfl s, exec_rd_of_reg .tag rfl s,
      exec_rd_of_reg .acnt rfl s, exec_rd_of_reg .ccnt rfl s,
      fun i => exec_rd_of_reg (.rk i) (regOfNumber_rk i) s,
      fun _ hn => exec_of_badOperand_failedWith (.inl (readableNumber_eq_false hn))⟩⟩

/-- Settles O15: KEY, IV, ST and EXP are written from any `din`; for CTRIN bytes 0 to 11 of `din` decide, and the
other numbers are bad operands. -/
theorem wrResult : Obligations.WrResult :=
  ⟨hasEncoding_of_row (f := .a) (op := 0x03#8) (by decide) fun _ => rfl,
    fun s => ⟨exec_wr_of_ok rfl, exec_wr_of_ok rfl, exec_wr_of_ok rfl, exec_wr_of_ok rfl,
      fun hdin => exec_wr_of_ok (writeReg_ctrin hdin s),
      fun hdin => exec_of_badOperand_failedWith (.inr ⟨rfl, hdin⟩),
      fun _ hn => exec_of_badOperand_failedWith (.inl (writableNumber_eq_false hn))⟩⟩

end

