-- ==== Sys2Proof/Proofs/FirstFailure.lean ====
section
/-! PROOFS. The checks a command makes are those R275 lists for it, in the same order: so it reports the first of
the list that fails, writes nothing but STATUS if one does, and keeps the error record if none does (R272, R273,
R275). The idle step stands at the end (R285, R301). -/

namespace Sys2Proof.Machine

open Sys2Proof.Safety

/-! ### A check of the machine and the check R275 lists -/

/-- The check `o` that the machine makes is the listed check `c`: it fails in the same case, with the error of
the same code. -/
def Reports (o : Option ErrorCode) (c : Check) : Prop :=
  ∃ e, c.1 = (errorNumber e).toNat ∧ o = failIf c.2 e

theorem reports_key (s : State) : Reports (keyCheck s) (3, !s.status.kvalid) := ⟨.noKey, rfl, rfl⟩

theorem reports_iv (s : State) : Reports (ivCheck s) (6, s.iv != s.liv) :=
  ⟨.ivMismatch, rfl, congrArg (failIf · _) decide_not⟩

theorem reports_commit (s : State) : Reports (commitCheck s) (7, Config.keyCommit s.key != s.kc) :=
  ⟨.keyMismatch, rfl, congrArg (failIf · _) decide_not⟩

theorem reports_h (s : State) : Reports (hCheck s) (8, cipher 0#128 s.rk != s.h) :=
  ⟨.hMismatch, rfl, congrArg (failIf · _) decide_not⟩

theorem reports_counter (s : State) : Reports (counterCheck s) (9, s.ctrin.toNat != s.ctr.toNat + 1) :=
  ⟨.counterMismatch, rfl, congrArg (failIf · _) decide_not⟩

theorem reports_output (v : Bool) (out : Block) (s : State) :
    Reports (outputCheck v out s) (10, v && out != s.exp) :=
  ⟨.outputMismatch, rfl, congrArg (fun b => failIf (v && b) _) decide_not⟩

theorem reports_aadLimit (s : State) : Reports (aadLimitCheck s) (5, s.acnt.toNat == 4294967295) :=
  ⟨.limit, rfl, rfl⟩

theorem reports_encLimit (s : State) : Reports (encLimitCheck s) (5, 4294967294 ≤ s.ccnt.toNat) :=
  ⟨.limit, rfl, rfl⟩

/-- A chain step accepted in one MODE (R202, R224). -/
theorem reports_phase (m : Mode) (s : State) : Reports (phaseCheck [m] s) (4, s.status.mode != m) :=
  ⟨.phase, rfl, congrArg (failIf · _) (Bool.eq_iff_iff.2 (by simp))⟩

/-- A chain step accepted in two MODEs (R225, R226). -/
theorem reports_phase_pair (m m' : Mode) (s : State) :
    Reports (phaseCheck [m, m'] s) (4, s.status.mode != m && s.status.mode != m') :=
  ⟨.phase, rfl, congrArg (failIf · _) (Bool.eq_iff_iff.2 (by simp))⟩

theorem reports_operand_rd (n : Byte) (s : State) :
    Reports (operandCheck (.rd n) s) (2, !readableNumber n) :=
  ⟨.badOperand, rfl, congrArg (failIf · _) (Bool.eq_iff_iff.2 (by simp [Instr.wellFormed]))⟩

theorem reports_operand_wr (n : Byte) (s : State) :
    Reports (operandCheck (.wr n) s)
      (2, !writableNumber n || (n == 0x04#8 && s.din.extractLsb' 32 96 != 0#96)) :=
  ⟨.badOperand, rfl, congrArg (failIf · _) (Bool.eq_iff_iff.2 (by simp [Instr.wellFormed, high96]))⟩

theorem reports_operand_addRk (n : Byte) (s : State) :
    Reports (operandCheck (.addRk n) s) (2, 10 < n.toNat) :=
  ⟨.badOperand, rfl, congrArg (failIf · _) (Bool.eq_iff_iff.2 (by simp [Instr.wellFormed]))⟩

/-! ### The first failure -/

/-- The machine's checks `cs` and the listed checks `ds` report the same first failure, by its code. -/
def SameFirstFailure (cs : List (Option ErrorCode)) (ds : List Check) : Prop :=
  (firstFailure cs).map (fun e => (errorNumber e).toNat) = (ds.find? (fun c => c.2)).map Prod.fst

section SameFirstFailure

variable {cs : List (Option ErrorCode)} {ds : List Check}

/-- It is enough that the checks agree one by one. -/
theorem sameFirstFailure_of_forall₂ (h : List.Forall₂ Reports cs ds) : SameFirstFailure cs ds := by
  unfold SameFirstFailure
  induction h with
  | nil => rfl
  | @cons o c _ _ hc _ ih =>
    obtain ⟨e, hcode, rfl⟩ := hc
    cases hbad : c.2 with
    | true => simp [hbad, hcode]
    | false => simpa [hbad] using ih

theorem SameFirstFailure.find?_eq_none (h : SameFirstFailure cs ds) (hcs : firstFailure cs = none) :
    ds.find? (fun c => c.2) = none := by
  rw [SameFirstFailure, hcs] at h
  exact Option.map_eq_none_iff.1 h.symm

theorem SameFirstFailure.exists_find?_eq_some (h : SameFirstFailure cs ds) {e : ErrorCode}
    (hcs : firstFailure cs = some e) : ∃ c, ds.find? (fun c => c.2) = some c ∧ c.1 = (errorNumber e).toNat := by
  rw [SameFirstFailure, hcs] at h
  exact Option.map_eq_some_iff.1 h.symm

end SameFirstFailure

/-! ### The checks of a command and the list of R275 -/

/-- gcm_check, and the checks made after it (R221). -/
theorem forall₂_reports_gcmChecks (s : State) {cs : List (Option ErrorCode)} {ds : List Check}
    (h : List.Forall₂ Reports cs ds) : List.Forall₂ Reports (gcmChecks s ++ cs) (gcmCheckList s ++ ds) :=
  .cons (reports_iv s) (.cons (reports_commit s) (.cons (reports_h s) h))

/-- A command whose operand cannot be bad starts with its checks of the state. -/
theorem sameFirstFailure_of_operandCheck {i : Instr} {s : State} {ds : List Check}
    (hop : operandCheck i s = none) (h : List.Forall₂ Reports (stateChecks i s) ds) :
    SameFirstFailure (operandCheck i s :: stateChecks i s) ds := by
  rw [SameFirstFailure, hop, firstFailure_none_cons]
  exact sameFirstFailure_of_forall₂ h

/-- Every command makes the checks listed for it, in the order of the list (R275). -/
theorem sameFirstFailure_checkList (i : Instr) (s : State) :
    SameFirstFailure (operandCheck i s :: stateChecks i s) (checkList i s) := by
  cases i with
  | rd n => exact sameFirstFailure_of_forall₂ (.cons (reports_operand_rd n s) .nil)
  | wr n => exact sameFirstFailure_of_forall₂ (.cons (reports_operand_wr n s) .nil)
  | addRk n =>
    exact sameFirstFailure_of_forall₂ (.cons (reports_operand_addRk n s) (.cons (reports_key s) .nil))
  | encrypt | gcmSetup => exact sameFirstFailure_of_operandCheck rfl (.cons (reports_key s) .nil)
  | ctrBase v =>
    exact sameFirstFailure_of_operandCheck rfl (.cons (reports_key s) (.cons (reports_output v _ s) .nil))
  | ctrStep v =>
    exact sameFirstFailure_of_operandCheck rfl (.cons (reports_key s) (.cons (reports_phase .ctr s)
      (.cons (reports_iv s) (.cons (reports_commit s) (.cons (reports_counter s)
      (.cons (reports_output v _ s) .nil))))))
  | gcmAad =>
    exact sameFirstFailure_of_operandCheck rfl (.cons (reports_key s) (.cons (reports_phase .gcmAad s)
      (.cons (reports_aadLimit s) (forall₂_reports_gcmChecks s .nil))))
  | gcmEnc v =>
    exact sameFirstFailure_of_operandCheck rfl (.cons (reports_key s) (.cons (reports_phase_pair .gcmAad .gcmEnc s)
      (.cons (reports_encLimit s) (forall₂_reports_gcmChecks s (.cons (reports_output v _ s) .nil)))))
  | gcmFinal v =>
    exact sameFirstFailure_of_operandCheck rfl (.cons (reports_key s) (.cons (reports_phase_pair .gcmAad .gcmEnc s)
      (forall₂_reports_gcmChecks s (.cons (reports_output v _ s) .nil))))
  | _ => exact sameFirstFailure_of_operandCheck rfl .nil

/-- The checks after decode report the codes 2 to 10 (R270). -/
theorem code_range_of_mem_checkList (i : Instr) (s : State) : ∀ c ∈ checkList i s, 2 ≤ c.1 ∧ c.1 ≤ 10 := by
  cases i <;> simp [checkList, gcmCheckList]

/-! ### The idle step -/

/-- With nothing presented, the core keeps all state (R285, R301). -/
theorem step_of_idle {s : State} (hhost : s.host = []) : step s = .next s := by
  rw [step, hhost]

end Sys2Proof.Machine

open Sys2Proof.Machine Sys2Proof.Safety

/-- Settles O48: the machine's checks are the listed ones in the listed order, so the first that fails is the
same. -/
theorem firstFailingCheckIsReported : Obligations.FirstFailingCheckIsReported := by
  intro i s
  obtain ⟨t, ht⟩ := exists_exec_eq_next i s
  refine ⟨t, ht, ?_⟩
  have hsame := sameFirstFailure_checkList i s
  obtain ⟨hop, hpass, rfl⟩ | ⟨e, he, rfl⟩ := exec_cases ht
  · rw [hsame.find?_eq_none (firstFailure_of_pass hop ((firstFailure_eq_none _).2 hpass))]
    rfl
  · obtain ⟨c, hc, hcode⟩ := hsame.exists_find?_eq_some he
    rw [hc]
    exact (failWith_eq_failedWith e s).trans (congrArg (failedWith · s) hcode.symm)

/-- Settles O46: `raise` is a failure with the error's code, and a command that leaves LERR set is the failure of
one of its listed checks. -/
theorem failureWritesOnlyStatus : Obligations.FailureWritesOnlyStatus := by
  refine ⟨fun e s => congrArg _ (failWith_eq_failedWith e s), fun i s t ht hlerr => ?_⟩
  obtain ⟨u, hu, hfirst⟩ := firstFailingCheckIsReported i s
  obtain rfl : t = u := Host.Outcome.next.inj (ht.symm.trans hu)
  split at hfirst
  next c hfind =>
    obtain ⟨hlo, hhi⟩ := code_range_of_mem_checkList i s c (List.mem_of_find?_eq_some hfind)
    exact ⟨c.1, hlo, hhi, hfirst⟩
  next => exact absurd (hfirst.symm.trans hlerr) Bool.false_ne_true

/-- Settles O47: a command that leaves LERR clear has passed its checks, and the writes of every command but CLRERR
keep the error record. -/
theorem successKeepsErrorRecord : Obligations.SuccessKeepsErrorRecord := by
  refine ⟨fun _ => rfl, fun i s t ht hlerr hi => ?_⟩
  obtain ⟨-, -, rfl⟩ | ⟨e, -, rfl⟩ := exec_cases ht
  · exact commandWrites_keeps_errorRecord hi s
  · exact absurd hlerr.symm Bool.false_ne_true

/-- Settles O8: the step of a host with no event. -/
theorem idleStepKeepsState : Obligations.IdleStepKeepsState := fun _ => step_of_idle

end

