-- ==== Sys2Proof/Proofs/KeyValidity.lean ====
section
/-! PROOFS. KEY, the round keys and KVALID: KEY_EXPAND makes the round keys those of KEY, WR KEY makes them out of
date, and no other command touches any of the three (R33, R186, R253, R302, R311). -/

namespace Sys2Proof.Machine

open Sys2Proof.Safety

variable {i : Instr} {s t : State}

/-! ### What a command does to KEY, the round keys and KVALID -/

/-- A command `i` from `s` to `t` expanded KEY, or wrote KEY and left the round keys of the earlier one, or kept
KEY, the round keys and KVALID. -/
inductive KeyUpdate (i : Instr) (s t : State) : Prop where
  | expanded (hi : i = .keyExpand) (hkey : t.key = s.key) (hrk : t.rk = keyExpansion s.key)
      (hvalid : t.status.kvalid = true)
  | outdated (hi : i = .wr 0x00#8) (hrk : t.rk = s.rk) (hvalid : t.status.kvalid = false)
  | kept (hkey : t.key = s.key) (hrk : t.rk = s.rk) (hvalid : t.status.kvalid = s.status.kvalid)

theorem keyUpdate_commandWrites (i : Instr) (s : State) : KeyUpdate i s (succeed (commandWrites i s)) := by
  cases i with
  | keyExpand => exact .expanded rfl rfl rfl rfl
  | wr n =>
    by_cases hn : n = 0x00#8
    · subst hn; exact .outdated rfl rfl rfl
    · simp only [commandWrites, hn, if_false]
      split_ifs <;> exact .kept rfl rfl rfl
  | _ => exact .kept rfl rfl rfl

theorem keyUpdate_of_exec (h : exec i s = .next t) : KeyUpdate i s t := by
  obtain ⟨-, -, rfl⟩ | ⟨e, -, rfl⟩ := exec_cases h
  · exact keyUpdate_commandWrites i s
  · exact .kept rfl rfl rfl

/-! ### The KVALID invariant (R33) -/

theorem keysValid_succeed (i : Instr) (h : KeysValid s) : KeysValid (succeed (commandWrites i s)) := by
  intro hvalid
  cases keyUpdate_commandWrites i s with
  | expanded _ hkey hrk _ => rw [hrk, hkey]
  | outdated _ _ hfalse => exact absurd (hfalse.symm.trans hvalid) Bool.false_ne_true
  | kept hkey hrk hsame => rw [hrk, hkey, h (hsame.symm.trans hvalid)]

theorem keyExpand_of_kvalid_set (h : exec i s = .next t) (hs : s.status.kvalid = false)
    (ht : t.status.kvalid = true) : i = .keyExpand ∧ t.rk = keyExpansion s.key := by
  cases keyUpdate_of_exec h with
  | expanded hi _ hrk _ => exact ⟨hi, hrk⟩
  | outdated _ _ hfalse => exact absurd (hfalse.symm.trans ht) Bool.false_ne_true
  | kept _ _ hsame => exact absurd (hs.symm.trans (hsame.symm.trans ht)) Bool.false_ne_true

theorem wr_key_of_key_changed (h : exec i s = .next t) (hne : t.key ≠ s.key) :
    i = .wr 0x00#8 ∧ t.status.kvalid = false := by
  cases keyUpdate_of_exec h with
  | expanded _ hkey _ _ => exact absurd hkey hne
  | outdated hi _ hfalse => exact ⟨hi, hfalse⟩
  | kept hkey _ _ => exact absurd hkey hne

/-! ### The round keys (R302, R311) -/

theorem keyExpand_of_rk_changed (h : exec i s = .next t) (hne : t.rk ≠ s.rk) :
    i = .keyExpand ∧ t.rk = keyExpansion t.key ∧ t.status.kvalid = true := by
  cases keyUpdate_of_exec h with
  | expanded hi hkey hrk hvalid => exact ⟨hi, by rw [hrk, hkey], hvalid⟩
  | outdated _ hrk _ => exact absurd hrk hne
  | kept _ hrk _ => exact absurd hrk hne

/-- Without KEY_EXPAND an invalid key stays invalid, and the round keys stay (R311). -/
theorem kvalid_false_and_rk_kept (hs : s.status.kvalid = false) (hi : i ≠ .keyExpand)
    (h : exec i s = .next t) : t.status.kvalid = false ∧ t.rk = s.rk := by
  cases keyUpdate_of_exec h with
  | expanded hexp _ _ _ => exact absurd hexp hi
  | outdated _ hrk hfalse => exact ⟨hfalse, hrk⟩
  | kept _ hrk hsame => exact ⟨hsame.trans hs, hrk⟩

theorem operandCheck_of_needsKey (hi : needsKey i = true) (s : State) : operandCheck i s = none := by
  cases i with
  | addRk n => exact (operandCheck_addRk_eq_none n s).2 (of_decide_eq_true hi)
  | encrypt | ctrBase _ | ctrStep _ | gcmSetup | gcmAad | gcmEnc _ | gcmFinal _ => rfl
  | _ => nomatch hi

/-- The key check comes before every other check of the state (R275). -/
theorem firstFailure_of_needsKey (hi : needsKey i = true) (hs : s.status.kvalid = false) :
    firstFailure (stateChecks i s) = some .noKey := by
  cases i with
  | addRk _ | encrypt | ctrBase _ | ctrStep _ | gcmSetup | gcmAad | gcmEnc _ | gcmFinal _ =>
    exact firstFailure_of_fail (keyCheck_fail hs) _
  | _ => nomatch hi

/-- With KVALID = 0 a command that needs a key fails with NO_KEY (R311). -/
theorem exec_of_needsKey_noKey (hs : s.status.kvalid = false) (hi : needsKey i = true) :
    exec i s = .next (failedWith 3 s) :=
  exec_of_fail i s (operandCheck_of_needsKey hi s) (firstFailure_of_needsKey hi hs)

end Sys2Proof.Machine

open Sys2Proof.Machine

/-- Settles O51: KEY_EXPAND makes the implication true, WR KEY and a reset make its premise false, and everything
else keeps its three registers. -/
theorem keysValidKept : Obligations.KeysValidKept :=
  ⟨fun _ _ => step_keeps (fun _ => nofun) (fun _ _ _ h => h) (fun _ _ h => h)
      (fun i _ _ h => keysValid_succeed i h),
    fun _ _ _ => keyExpand_of_kvalid_set, fun _ _ _ => wr_key_of_key_changed, rfl⟩

/-- Settles O58: WR KEY clears KVALID, only KEY_EXPAND sets it again or writes the round keys, and the key check is
the first that can fail in a command that needs a key. -/
theorem keyMustBeReexpanded : Obligations.KeyMustBeReexpanded := by
  refine ⟨fun s t h => ?_, fun _ _ _ => kvalid_false_and_rk_kept, fun _ _ => exec_of_needsKey_noKey,
    fun s j _ => exec_rd_of_reg (.rk j) (regOfNumber_rk j) s⟩
  obtain rfl := Host.Outcome.next.inj h
  exact ⟨rfl, rfl⟩

end

