-- ==== Sys2Proof/Proofs/ModeTransitions.lean ====
section
/-! PROOFS. STATUS.MODE: what a success, a failure and a reset make of it (R222, R272, R276, R300, R302). -/

namespace Sys2Proof.Machine

open Sys2Proof.Safety

variable {i : Instr} {s t : State}

/-! ### Success -/

/-- The phase check passes only in a MODE that accepts the command (R222). -/
theorem acceptedIn_of_pass (h : ∀ c ∈ stateChecks i s, c = none) : acceptedIn i s.status.mode = true := by
  cases i with
  | ctrStep v | gcmAad | gcmEnc v | gcmFinal v =>
    have hphase := (phaseCheck_eq_none _ s).1 (h _ (List.mem_cons_of_mem _ List.mem_cons_self))
    simpa [acceptedIn] using hphase
  | _ => rfl

/-- A command that completes leaves the MODE of the table: CTR_STEP and GCM_AAD keep the one they are accepted in,
and each other command either writes MODE or is a row of the table that keeps it (R276). -/
theorem mode_commandWrites (h : ∀ c ∈ stateChecks i s, c = none) :
    (commandWrites i s).status.mode = modeOnSuccess i s.status.mode := by
  have haccepted := acceptedIn_of_pass h
  cases i with
  | ctrStep _ | gcmAad => exact eq_of_beq haccepted
  | wr n => unfold commandWrites; dsimp only; split_ifs <;> rfl
  | _ => rfl

/-! ### Failure -/

/-- A command that leaves LERR set is the failure of one of its listed checks (R275). -/
theorem exists_mem_checkList_of_lerr (h : exec i s = .next t) (hlerr : t.status.lerr = true) :
    ∃ c ∈ checkList i s, t = failedWith c.1 s := by
  obtain ⟨-, -, rfl⟩ | ⟨e, he, rfl⟩ := exec_cases h
  · exact absurd hlerr Bool.false_ne_true
  · obtain ⟨c, hc, hcode⟩ := (sameFirstFailure_checkList i s).exists_find?_eq_some he
    exact ⟨c, List.mem_of_find?_eq_some hc, by rw [hcode, failWith_eq_failedWith]⟩

/-- A failure keeps MODE or leaves FAILED (R272). -/
theorem mode_failWith (e : ErrorCode) (s : State) :
    (failWith e s).status.mode = .failed ∨ (failWith e s).status.mode = s.status.mode := by
  rw [failWith_status, failStatus_mode]
  split
  · exact .inl rfl
  · exact .inr rfl

/-- The code of a listed check is the number ECODE holds after it fails. -/
theorem toNat_ecode_failedWith {c : Check} (hc : c ∈ checkList i s) :
    (failedWith c.1 s).status.ecode.toNat = c.1 := by
  obtain ⟨-, hle⟩ := code_range_of_mem_checkList i s c hc
  exact Nat.mod_eq_of_lt (by omega)

theorem mode_failedWith (code : Nat) (s : State) :
    (failedWith code s).status.mode = if 4 ≤ code then .failed else s.status.mode := rfl

/-- A command that is no chain step, and GCM_SETUP, make no check of category 2 (R270, R271). -/
theorem code_lt_four_of_mem_checkList (hi : canEndChain i = false) : ∀ c ∈ checkList i s, c.1 < 4 := by
  cases i with
  | ctrBase _ | ctrStep _ | gcmAad | gcmEnc _ | gcmFinal _ => nomatch hi
  | _ => simp [checkList]

/-- The phase check is the first after that of the key (R222, R275). -/
theorem firstFailure_of_notAccepted (hkey : s.status.kvalid = true) (h : acceptedIn i s.status.mode = false) :
    operandCheck i s = none ∧ firstFailure (stateChecks i s) = some .phase := by
  cases i with
  | ctrStep v | gcmAad | gcmEnc v | gcmFinal v =>
    exact ⟨rfl, firstFailure_past_key hkey
      (firstFailure_of_fail (phaseCheck_fail (by simpa [acceptedIn] using h)) _)⟩
  | _ => nomatch h

/-- With a key, a command in a MODE that does not accept it fails with PHASE (R276). -/
theorem exec_of_notAccepted (hkey : s.status.kvalid = true) (h : acceptedIn i s.status.mode = false) :
    exec i s = .next (failedWith 4 s) :=
  have ⟨hop, hphase⟩ := firstFailure_of_notAccepted hkey h
  exec_of_fail i s hop hphase

/-! ### Reset and IDLE -/

/-- A reset gives the reset state, whatever was in flight (R300). -/
theorem step_of_reset {aborted : Option Transaction} {rest : List HostEvent}
    (hhost : s.host = .reset aborted :: rest) : step s = .next (resetState rest) := by
  rw [step, hhost]

/-- The table has no row that leaves IDLE from another MODE (R276, R302). -/
theorem idle_of_modeOnSuccess_eq_idle {m : Mode} (h : modeOnSuccess i m = .idle) : m = .idle := by
  cases i with
  | ctrBase _ | ctrStep _ | gcmSetup | gcmAad | gcmEnc _ | gcmFinal _ => nomatch h
  | _ => exact h

/-- No command sets MODE to IDLE (R302). -/
theorem idle_before_exec (h : exec i s = .next t) (ht : t.status.mode = .idle) : s.status.mode = .idle := by
  obtain ⟨-, hpass, rfl⟩ | ⟨e, -, rfl⟩ := exec_cases h
  · exact idle_of_modeOnSuccess_eq_idle ((mode_commandWrites hpass).symm.trans ht)
  · obtain hfailed | hkept := mode_failWith e s
    · nomatch hfailed.symm.trans ht
    · exact hkept.symm.trans ht

end Sys2Proof.Machine

open Sys2Proof.Machine Sys2Proof.Safety

/-- Settles O49: a success passed the phase check and writes the table's MODE; a failure is one of the listed
checks, whose code says whether the chain ends; and PHASE is checked right after the key. -/
theorem modeTransitions : Obligations.ModeTransitions := by
  refine ⟨fun i s t h => ⟨fun hlerr => ?_, fun hlerr hcode => ?_, fun hlerr hcode => ?_, fun hkey hacc => ?_⟩, ?_⟩
  · obtain ⟨-, hpass, rfl⟩ | ⟨e, -, rfl⟩ := exec_cases h
    · exact ⟨acceptedIn_of_pass hpass, mode_commandWrites hpass⟩
    · exact absurd hlerr.symm Bool.false_ne_true
  · obtain ⟨c, hc, rfl⟩ := exists_mem_checkList_of_lerr h hlerr
    rw [toNat_ecode_failedWith hc] at hcode
    rw [mode_failedWith, if_neg (Nat.not_le.2 hcode)]
  · obtain ⟨c, hc, rfl⟩ := exists_mem_checkList_of_lerr h hlerr
    rw [toNat_ecode_failedWith hc] at hcode
    exact ⟨eq_true_of_ne_false fun hi => Nat.not_lt.2 hcode (code_lt_four_of_mem_checkList hi c hc),
      by rw [mode_failedWith, if_pos hcode]⟩
  · exact Host.Outcome.next.inj (h.symm.trans (exec_of_notAccepted hkey hacc))
  · intro s t aborted rest hhost h
    obtain rfl := Host.Outcome.next.inj ((step_of_reset hhost).symm.trans h)
    rfl

/-- Settles O9: the step on a reset event. -/
theorem resetEventGivesResetState : Obligations.ResetEventGivesResetState := fun _ _ _ => step_of_reset

/-- Settles O50: the MODE table enters IDLE from IDLE only, and KEY_EXPAND alone writes the round keys. -/
theorem noCommandResets : Obligations.NoCommandResets := fun _ _ _ h =>
  ⟨idle_before_exec h, keyExpand_of_rk_changed h⟩

end

