-- ==== Sys2Proof/Proofs/ChainRecords.lean ====
section
/-! PROOFS. The records of an open CTR and of an open GCM chain: what each command that leaves the chain open makes
of the record (R203, R227), and that a changed key is detected (R204). -/

namespace Sys2Proof.Machine

open Sys2Proof.Safety

variable {i : Instr} {s t : State}

/-- A step leads from `P` to `Q` if accepting a transaction keeps `P`, a reset establishes `Q`, and idling, a failure
and every command that passes its checks lead from `P` to `Q`. -/
theorem step_transition {P Q : State → Prop} (haccept : ∀ tr rest s, P s → P (accept tr rest s))
    (hreset : ∀ rest, Q (resetState rest)) (hidle : ∀ s, P s → Q s) (hfail : ∀ e s, P s → Q (failWith e s))
    (hpass : ∀ i s, (∀ c ∈ stateChecks i s, c = none) → P s → Q (succeed (commandWrites i s)))
    (hs : P s) (h : step s = .next t) : Q t := by
  obtain ⟨-, ht⟩ | ⟨_, rest, -, ht⟩ | ⟨tr, rest, _, -, -, ht⟩ | ⟨tr, rest, i, -, -, ht⟩ := step_cases h
  · exact Host.Outcome.next.inj ht ▸ hidle s hs
  · exact Host.Outcome.next.inj ht ▸ hreset rest
  · exact Host.Outcome.next.inj ht ▸ hfail _ _ (haccept tr rest s hs)
  · have hacc := haccept tr rest s hs
    obtain ⟨-, hchecks, rfl⟩ | ⟨e, -, rfl⟩ := exec_cases ht.symm
    · exact hpass i _ hchecks hacc
    · exact hfail e _ hacc

/-! ### The CTR chain (R203) -/

section Ctr

variable {iv0 key0 : Block} {cs : List Block}

/-- What a step makes of the record of an open CTR chain, if it leaves a CTR chain open. -/
def CtrRecordNext (iv0 key0 : Block) (cs : List Block) (t : State) : Prop :=
  t.status.mode = .ctr →
    CtrRecord iv0 key0 cs t ∨
    (CtrRecord iv0 key0 (cs ++ [t.dout]) t ∧ t.dout = t.din ^^^ cipher (inc iv0 cs.length) t.rk) ∨
    (CtrRecord t.iv t.key [t.dout] t ∧ t.dout = t.din ^^^ cipher (inc t.iv 0) t.rk)

theorem ctrRecordNext_failWith (e : ErrorCode) (h : CtrRecord iv0 key0 cs s) :
    CtrRecordNext iv0 key0 cs (failWith e s) := by
  obtain ⟨-, hrest⟩ := h
  exact fun hmode => .inl ⟨hmode, hrest⟩

/-- CTR_BASE starts a record with its block 0 (R201). -/
theorem ctrRecord_ctrBase (v : Bool) (s : State) :
    CtrRecord s.iv s.key [counterModeBlock s.iv 0 s] (succeed (commandWrites (.ctrBase v) s)) :=
  ⟨rfl, rfl, rfl, rfl, rfl⟩

/-- CTR_STEP extends the record by its block, whose number is the count of the earlier ones (R202). -/
theorem ctrRecord_ctrStep {v : Bool} (hcounter : s.ctrin.toNat = s.ctr.toNat + 1)
    (h : CtrRecord iv0 key0 cs s) :
    CtrRecord iv0 key0 (cs ++ [counterModeBlock s.liv s.ctrin.toNat s])
      (succeed (commandWrites (.ctrStep v) s)) := by
  obtain ⟨hmode, hliv, hkc, hctr, hcc⟩ := h
  refine ⟨hmode, hliv, hkc, ?_, ?_⟩
  · rw [List.length_append, ← hctr, ← hcounter]
    rfl
  · rw [List.foldl_concat, ← hcc]
    rfl

theorem ctrRecordNext_succeed (hchecks : ∀ c ∈ stateChecks i s, c = none) (h : CtrRecord iv0 key0 cs s) :
    CtrRecordNext iv0 key0 cs (succeed (commandWrites i s)) := by
  intro hmode
  cases i with
  | ctrBase v => exact .inr (.inr ⟨ctrRecord_ctrBase v s, rfl⟩)
  | ctrStep v =>
    have hcounter := (counterCheck_eq_none s).1 (hchecks _ (by simp [stateChecks]))
    have hdout : counterModeBlock s.liv s.ctrin.toNat s = counterModeBlock iv0 cs.length s := by
      obtain ⟨-, hliv, -, hctr, -⟩ := h
      rw [hliv, hcounter, hctr]
    exact .inr (.inl ⟨ctrRecord_ctrStep hcounter h, hdout⟩)
  | gcmSetup | gcmEnc _ | gcmFinal _ => nomatch hmode
  | wr n =>
    left
    unfold commandWrites
    dsimp only
    split_ifs <;> exact h
  | _ => exact .inl h

end Ctr

/-! ### The GCM chain (R227) -/

section Gcm

variable {iv0 key0 h : Block} {ad cs : List Block}

/-- The next `Y` of R227. -/
theorem ghash_concat (h : Block) (xs : List Block) (x : Block) :
    ghash h (xs ++ [x]) = ghashFold h (ghash h xs) x := List.foldl_concat ..

/-- What a step makes of the record of an open GCM chain, if it leaves a GCM chain open. -/
def GcmRecordNext (iv0 key0 h : Block) (ad cs : List Block) (t : State) : Prop :=
  (t.status.mode = .gcmAad ∨ t.status.mode = .gcmEnc) →
    GcmRecord iv0 key0 h ad cs t ∨
    (cs = [] ∧ GcmRecord iv0 key0 h (ad ++ [t.din]) [] t) ∨
    (GcmRecord iv0 key0 h ad (cs ++ [t.dout]) t ∧
      t.dout = t.din ^^^ cipher (inc iv0 (cs.length + 1)) t.rk) ∨
    GcmRecord t.iv t.key (cipher 0#128 t.rk) [] [] t

theorem gcmRecordNext_failWith (e : ErrorCode) (hs : GcmRecord iv0 key0 h ad cs s) :
    GcmRecordNext iv0 key0 h ad cs (failWith e s) := by
  obtain ⟨hphase, hrest⟩ := hs
  intro hopen
  obtain hfailed | hkept := mode_failWith e s
  · rw [hfailed] at hopen
    exact hopen.elim nofun nofun
  · exact .inl ⟨hkept ▸ hphase, hrest⟩

/-- GCM_SETUP starts an empty record (R223). -/
theorem gcmRecord_gcmSetup (s : State) :
    GcmRecord s.iv s.key (cipher 0#128 s.rk) [] [] (succeed (commandWrites .gcmSetup s)) :=
  ⟨.inl ⟨rfl, rfl⟩, rfl, rfl, rfl, rfl, rfl, rfl⟩

/-- GCM_AAD counts its block, and its LIMIT check leaves room for it (R224). -/
theorem toNat_acnt_add_one (hchecks : ∀ c ∈ stateChecks .gcmAad s, c = none) :
    (s.acnt + 1).toNat = s.acnt.toNat + 1 := by
  have hlimit := (aadLimitCheck_eq_none s).1 (hchecks _ (by simp [stateChecks]))
  bv_omega

/-- GCM_AAD extends a record without ciphertext by `din` (R224). -/
theorem gcmRecord_gcmAad (hchecks : ∀ c ∈ stateChecks .gcmAad s, c = none)
    (hs : GcmRecord iv0 key0 h ad cs s) :
    cs = [] ∧ GcmRecord iv0 key0 h (ad ++ [s.din]) [] (succeed (commandWrites .gcmAad s)) := by
  obtain ⟨hphase, hliv, hkc, hh, hacnt, hccnt, htag⟩ := hs
  have hmode := (phaseCheck_eq_none [.gcmAad] s).1 (hchecks _ (by simp [stateChecks]))
  obtain ⟨haad, rfl⟩ | ⟨henc, -⟩ := hphase
  · refine ⟨rfl, .inl ⟨haad, rfl⟩, hliv, hkc, hh, ?_, hccnt, ?_⟩
    · rw [List.length_append, ← hacnt]
      exact toNat_acnt_add_one hchecks
    · rw [List.append_nil] at htag ⊢
      rw [ghash_concat, ← htag, ← hh]
      rfl
  · rw [henc] at hmode
    nomatch List.mem_singleton.1 hmode

/-- GCM_ENC extends the record by its ciphertext block (R225). -/
theorem gcmRecord_gcmEnc {v : Bool} (hchecks : ∀ c ∈ stateChecks (.gcmEnc v) s, c = none)
    (hs : GcmRecord iv0 key0 h ad cs s) :
    GcmRecord iv0 key0 h ad (cs ++ [counterModeBlock s.liv (s.ccnt.toNat + 1) s])
      (succeed (commandWrites (.gcmEnc v) s)) := by
  obtain ⟨-, hliv, hkc, hh, hacnt, hccnt, htag⟩ := hs
  refine ⟨.inr ⟨rfl, List.concat_ne_nil _ _⟩, hliv, hkc, hh, hacnt, ?_, ?_⟩
  · rw [List.length_append, ← hccnt]
    exact (toNat_ccnt_add_one hchecks).1
  · rw [← List.append_assoc, ghash_concat, ← htag, ← hh]
    rfl

theorem gcmRecordNext_succeed (hchecks : ∀ c ∈ stateChecks i s, c = none) (hs : GcmRecord iv0 key0 h ad cs s) :
    GcmRecordNext iv0 key0 h ad cs (succeed (commandWrites i s)) := by
  intro hopen
  cases i with
  | gcmSetup => exact .inr (.inr (.inr (gcmRecord_gcmSetup s)))
  | gcmAad => exact .inr (.inl (gcmRecord_gcmAad hchecks hs))
  | gcmEnc v =>
    have hrecord := gcmRecord_gcmEnc hchecks hs
    obtain ⟨-, hliv, -, -, -, hccnt, -⟩ := hs
    refine .inr (.inr (.inl ⟨hrecord, ?_⟩))
    rw [← hliv, ← hccnt]
    rfl
  | ctrBase _ | gcmFinal _ => exact hopen.elim nofun nofun
  | wr n =>
    left
    unfold commandWrites
    dsimp only
    split_ifs <;> exact hs
  | _ => exact .inl hs

/-- GCM_FINAL folds the length block of the record and masks the result (R226). -/
theorem tag_gcmFinal (v : Bool) (hs : GcmRecord iv0 key0 h ad cs s) :
    (commandWrites (.gcmFinal v) s).tag =
      ghash h (ad ++ cs ++ [lenblock ad.length cs.length]) ^^^ cipher iv0 s.rk := by
  obtain ⟨-, hliv, -, hh, hacnt, hccnt, htag⟩ := hs
  rw [ghash_concat, ← htag, ← hacnt, ← hccnt, ← hh, ← hliv]
  rfl

end Gcm

end Sys2Proof.Machine

open Sys2Proof Sys2Proof.Machine Sys2Proof.Safety

/-- Settles O37: only CTR_BASE and CTR_STEP leave a CTR chain open with one of its registers changed, and a reset
leaves none open. -/
theorem ctrChainRecordKept : Obligations.CtrChainRecordKept := fun iv0 key0 cs _ _ hs h =>
  step_transition (P := CtrRecord iv0 key0 cs) (Q := CtrRecordNext iv0 key0 cs) (fun _ _ _ hs => hs)
    (fun _ => nofun) (fun _ hs _ => .inl hs) (fun e _ => ctrRecordNext_failWith e)
    (fun _ _ => ctrRecordNext_succeed) hs h

/-- Settles O43: only GCM_SETUP, GCM_AAD and GCM_ENC leave a GCM chain open with one of its registers changed; and a
GCM_FINAL that completes has folded the length block into the record's GHASH. -/
theorem gcmChainRecordKept : Obligations.GcmChainRecordKept := by
  refine ⟨fun iv0 key0 h ad cs s t hs hstep => ?_, fun v iv0 key0 h ad cs s t hs hexec hlerr => ?_⟩
  · exact step_transition (P := GcmRecord iv0 key0 h ad cs) (Q := GcmRecordNext iv0 key0 h ad cs)
      (fun _ _ _ hs => hs) (fun _ hopen => hopen.elim nofun nofun) (fun _ hs _ => .inl hs)
      (fun e _ => gcmRecordNext_failWith e) (fun _ _ => gcmRecordNext_succeed) hs hstep
  · obtain ⟨-, -, rfl⟩ | ⟨e, -, rfl⟩ := exec_cases hexec
    · exact ⟨tag_gcmFinal v hs, rfl⟩
    · exact absurd hlerr.symm Bool.false_ne_true

/-- Settles O38: the key check comes first and keeps the chain open; past it, with the chain's IV, the commitments
decide. -/
theorem ctrKeyChangeDetected : Obligations.CtrKeyChangeDetected := by
  intro v key0 s hmode hkc hiv
  refine ⟨fun hkey => ⟨exec_ctrStep_noKey hkey, (mode_failedWith 3 s).trans hmode⟩, fun hkey => ?_⟩
  by_cases hcommit : Config.keyCommit s.key = s.kc
  · exact .inl (hcommit.trans hkc)
  · exact .inr (exec_ctrStep_keyMismatch hkey hmode hiv hcommit)

end

