-- ==== Sys2Proof/Proofs/RepeatedCommands.lean ====
section
/-! PROOFS. Repeating a command that reads nothing it writes, but for RD and the round transforms, where what is
written back is what is read (R71). -/

namespace Sys2Proof.Machine

open Sys2Proof.Safety

variable {i : Instr} {s t u : State}

/-! ### What a repetition reads -/

theorem din_of_exec (h : exec i s = .next t) : t.din = s.din := by
  obtain ⟨-, -, rfl⟩ | ⟨e, -, rfl⟩ := exec_cases h
  · cases i with
    | wr n => unfold commandWrites; dsimp only; split_ifs <;> rfl
    | _ => rfl
  · rfl

/-- The operand check reads the operands alone. -/
theorem operandCheck_congr (i : Instr) (hdin : u.din = s.din) : operandCheck i u = operandCheck i s := by
  rw [operandCheck, operandCheck, hdin]

theorem keyCheck_congr (hvalid : u.status.kvalid = s.status.kvalid) : keyCheck u = keyCheck s := by
  rw [keyCheck, keyCheck, hvalid]

/-- Only KEY_EXPAND and WR KEY write KVALID (R186, R253). -/
theorem kvalid_of_exec (hexpand : i ≠ .keyExpand) (hwr : i ≠ .wr 0x00#8) (h : exec i s = .next t) :
    t.status.kvalid = s.status.kvalid := by
  cases keyUpdate_of_exec h with
  | expanded hi _ _ _ => exact absurd hi hexpand
  | outdated hi _ _ => exact absurd hi hwr
  | kept _ _ hsame => exact hsame

/-! ### Repetition -/

/-- A failure with the same error once more writes the same STATUS (R272). -/
theorem failWith_failWith (e : ErrorCode) (s : State) : failWith e (failWith e s) = failWith e s := by
  cases e <;> rfl

/-- If `u` gives a command the same operands and checks as `s`, and both of its ends lead from `u` to the state they
led to from `s`, then the command leads there. -/
theorem exec_again (h : exec i s = .next t) (hdin : u.din = s.din) (hchecks : stateChecks i u = stateChecks i s)
    (hpass : t = succeed (commandWrites i s) → succeed (commandWrites i u) = t)
    (hfail : ∀ e, t = failWith e s → failWith e u = t) : exec i u = .next t := by
  rw [exec_eq_checked, operandCheck_congr i hdin, hchecks]
  obtain ⟨hop, hcs, ht⟩ | ⟨e, he, ht⟩ := exec_cases h
  · rw [checked_pass (List.forall_mem_cons.2 ⟨hop, hcs⟩), hpass ht]
  · rw [checked_fail he, hfail e ht]

/-- A command whose checks do not see its effect, and whose writes write the same from the state they leave, leads
from that state to itself. -/
theorem exec_repeat (h : exec i s = .next t) (hchecks : stateChecks i t = stateChecks i s)
    (hwrites : succeed (commandWrites i (succeed (commandWrites i s))) = succeed (commandWrites i s)) :
    exec i t = .next t :=
  exec_again h (din_of_exec h) hchecks (fun ht => ht ▸ hwrites) (fun e ht => ht ▸ failWith_failWith e s)

/-! ### RD -/

theorem regOfNumber_eq_status (n : Byte) : regOfNumber n = some .status ↔ n = 0x06#8 := by
  unfold regOfNumber
  split <;> simp_all

/-- RD reads the same after it has put what it read in DOUT and cleared LERR: DOUT itself holds what was read, and
STATUS is the only other register that changed (R252). -/
theorem rdValue_again {n : Byte} (hlerr : n = 0x06#8 → s.status.lerr = false) :
    rdValue n (succeed (writeDout (rdValue n s) s)) = rdValue n s := by
  unfold rdValue
  cases hr : regOfNumber n with
  | none => rfl
  | some r =>
    cases r with
    | status =>
      have hsame : succeedStatus s.status = s.status := by
        rw [succeedStatus, ← hlerr ((regOfNumber_eq_status n).1 hr)]
      exact congrArg (fun st => wordResult (statusWord st)) hsame
    | _ => rfl

/-! ### WR and the round transforms -/

/-- WR writes a register from `din`, which it keeps (R253). -/
theorem commandWrites_wr_again (n : Byte) (s : State) :
    succeed (commandWrites (.wr n) (succeed (commandWrites (.wr n) s))) = succeed (commandWrites (.wr n) s) := by
  simp only [commandWrites]
  split_ifs <;> rfl

/-- `s` with another value of ST. -/
def State.withSt (v : Block) (s : State) : State := { s with st := v }

/-- A command that fills ST and DOUT with the value its operands give leads to the same state from its result with ST
put back (R152 to R155). -/
theorem exec_round_again {v : Block} (h : exec i s = .next t)
    (hwrites : ∀ u, u.st = s.st → u.rk = s.rk → commandWrites i u = writeSt v u)
    (hchecks : stateChecks i (t.withSt s.st) = stateChecks i s) : exec i (t.withSt s.st) = .next t := by
  have hdin : t.din = s.din := din_of_exec h
  refine exec_again h hdin hchecks ?_ ?_
  · rintro rfl
    rw [hwrites s rfl rfl, hwrites ((succeed (writeSt v s)).withSt s.st) rfl rfl]
    rfl
  · rintro e rfl
    exact failWith_failWith e s

end Sys2Proof.Machine

open Sys2Proof Sys2Proof.Machine

/-- Settles O59: each command finds the operands and the key it found before, so it ends the same way and writes the
same values. -/
theorem repeatedCommandsAreIdempotent : Obligations.RepeatedCommandsAreIdempotent := by
  refine fun a b s t => ⟨fun i hi h => ?_, fun i hi h => ?_⟩
  · obtain rfl | rfl | rfl | rfl | rfl | rfl | rfl | rfl | rfl | rfl | rfl | ⟨rfl, hlerr⟩ := hi
    iterate 9 exact exec_repeat h rfl rfl
    · have hvalid := kvalid_of_exec (i := .encrypt) nofun nofun h
      exact exec_repeat h (congrArg ([·]) (keyCheck_congr hvalid)) rfl
    · exact exec_repeat h rfl (commandWrites_wr_again a s)
    · exact exec_repeat h rfl (congrArg (fun v => succeed (writeDout v s)) (rdValue_again hlerr))
  · obtain rfl | rfl | rfl | rfl := hi
    iterate 3 exact exec_round_again h (fun u hst _ => by rw [commandWrites, hst]) rfl
    · have hvalid := kvalid_of_exec (i := .addRk a) nofun nofun h
      exact exec_round_again h (fun u hst hrk => by rw [commandWrites, hst, hrk])
        (congrArg ([·]) (keyCheck_congr hvalid))

end

