-- ==== Sys2Proof/Proofs/Gf128Product.lean ====
section
/-! PROOFS. GF(2^128) multiplication: turn by turn it is the polynomial product with the coefficients read in the
reflected order, and it is linear in the running value of its loop, which gives the laws of R107 (R105, R106). -/

namespace Sys2Proof.Machine

open Sys2Proof.Safety

/-! ### The reflected order -/

theorem bitVec_reverse_eq {w : Nat} {x y : BitVec w} (h : ∀ i : Fin w, x.getMsbD i = y.getLsbD i) :
    x.reverse = y :=
  BitVec.eq_of_getLsbD_eq fun i hi => BitVec.getLsbD_reverse.trans (h ⟨i, hi⟩)

theorem bitVec_reverse_xor {w : Nat} (x y : BitVec w) : (x ^^^ y).reverse = x.reverse ^^^ y.reverse := by
  refine BitVec.eq_of_getLsbD_eq fun i _ => ?_
  simp only [BitVec.getLsbD_reverse, BitVec.getLsbD_xor, BitVec.getMsbD_xor]

theorem bitVec_reverse_ushiftRight {w : Nat} (x : BitVec w) (n : Nat) : (x >>> n).reverse = x.reverse <<< n := by
  refine BitVec.eq_of_getLsbD_eq fun i _ => ?_
  simp only [BitVec.getLsbD_reverse, BitVec.getMsbD_ushiftRight, BitVec.getLsbD_shiftLeft, Bool.and_assoc]

/-- The reduction constant as a polynomial is x^7 + x^2 + x + 1 (R21, R105). -/
theorem reverse_gf128Reduction : (Config.gf128Reduction ++ 0#120).reverse = 0x87#128 :=
  bitVec_reverse_eq (by decide +kernel)

theorem reverse_gf128Shift (v : Block) :
    (gf128Shift v).reverse = v.reverse <<< 1 ^^^ if v.getLsbD 0 then 0x87#128 else 0#128 := by
  rw [gf128Shift]
  split
  · rw [bitVec_reverse_xor, bitVec_reverse_ushiftRight, reverse_gf128Reduction]
  · rw [bitVec_reverse_ushiftRight, BitVec.xor_zero]

/-! ### Blocks as polynomials -/

theorem testBit_blockPoly (b : Block) {i : Nat} (hi : i < 128) : (blockPoly b).testBit i = b.getLsbD (127 - i) := by
  rw [blockPoly, BitVec.testBit_toNat, BitVec.getLsbD_reverse, BitVec.getMsbD_eq_getLsbD, decide_eq_true hi,
    Bool.true_and]

theorem blockPoly_lt (b : Block) : blockPoly b < 2 ^ 128 := b.reverse.isLt

theorem blockPoly_injective : Function.Injective blockPoly := by
  refine fun x y h => BitVec.eq_of_getLsbD_eq fun i hi => ?_
  have hcoeff (b : Block) : b.getLsbD i = (blockPoly b).testBit (127 - i) := by
    rw [testBit_blockPoly b (by omega), Nat.sub_sub_self (by omega)]
  rw [hcoeff, hcoeff, h]

theorem blockPoly_xor (v w : Block) : blockPoly (v ^^^ w) = blockPoly v ^^^ blockPoly w := by
  simp only [blockPoly, bitVec_reverse_xor, BitVec.toNat_xor]

theorem blockPoly_zero : blockPoly 0 = 0 := by simpa using blockPoly_xor 0 0

/-- The block 80 00 ... 00 is the polynomial 1. -/
theorem blockPoly_one : blockPoly 0x80000000000000000000000000000000#128 = 1 :=
  congrArg BitVec.toNat (bitVec_reverse_eq (y := 1#128) (by decide +kernel))

/-- One turn of the running value multiplies by x and reduces once. -/
theorem blockPoly_gf128Shift (v : Block) :
    blockPoly (gf128Shift v) = polyMod (2 ^ 128 + 0x87) 128 1 (blockPoly v <<< 1) := by
  have hlt : blockPoly v <<< 1 < 2 ^ (128 + 1) := by
    have := blockPoly_lt v
    rw [Nat.shiftLeft_eq]
    omega
  have hbit : (blockPoly v <<< 1).testBit 128 = v.getLsbD 0 :=
    (Nat.testBit_shiftLeft _).trans (testBit_blockPoly v (by decide))
  rw [polyMod_one (by decide) (by decide) hlt, hbit, Nat.xor_mod_two_pow, blockPoly, reverse_gf128Shift,
    BitVec.toNat_xor, BitVec.toNat_shiftLeft, blockPoly]
  cases v.getLsbD 0 <;> rfl

/-! ### The product of polynomials -/

/-- The loop's invariant. After `k` turns the result is the product of `a` by the low `k` coefficients of `x`, reduced,
and the running value is `a` times x^k, reduced; so the remaining `n` turns complete the product. -/
theorem blockPoly_gf128Loop (x : Block) {a : Nat} (ha : a < 2 ^ 128) {n k : Nat} (hnk : n + k = 128) {z v : Block}
    (hz : blockPoly z = polyMod (2 ^ 128 + 0x87) 128 127 (polyMul a k (blockPoly x)))
    (hv : blockPoly v = polyMod (2 ^ 128 + 0x87) 128 k (a <<< k)) :
    blockPoly (gf128Loop x n z v) = polyMod (2 ^ 128 + 0x87) 128 127 (polyMul a 128 (blockPoly x)) := by
  induction n generalizing k z v with
  | zero =>
    obtain rfl : k = 128 := by omega
    exact hz
  | succ n ih =>
    have hbit : x.getLsbD n = (blockPoly x).testBit k := by
      rw [testBit_blockPoly x (by omega), show 127 - k = n by omega]
    have hterm : polyMod (2 ^ 128 + 0x87) 128 127 (a <<< k) = blockPoly v := by
      have hlt : a <<< k < 2 ^ (128 + k) := by
        rw [Nat.shiftLeft_eq, Nat.pow_add]
        exact Nat.mul_lt_mul_of_pos_right ha (by positivity)
      rw [hv, show 127 = k + n by omega, polyMod_add_of_lt _ hlt]
    rw [gf128Loop]
    refine ih (k := k + 1) (by omega) ?_ ?_
    · rw [polyMul, polyMod_xor, ← hz, hbit]
      split
      · rw [blockPoly_xor, hterm]
      · rw [polyMod_zero, Nat.xor_zero]
    · rw [blockPoly_gf128Shift, hv, ← polyMod_succ_shiftLeft_one, ← Nat.shiftLeft_add]

/-- The product by the polynomial of the iterated operand `x`. -/
theorem blockPoly_gf128Mul (x y : Block) :
    blockPoly (gf128Mul x y) = polyMod (2 ^ 128 + 0x87) 128 127 (polyMul (blockPoly y) 128 (blockPoly x)) := by
  refine blockPoly_gf128Loop x (blockPoly_lt y) (k := 0) rfl ?_ ?_
  · rw [polyMul, polyMod_zero, blockPoly_zero]
  · rw [polyMod, Nat.shiftLeft_zero]

/-! ### The laws of R107 -/

theorem gf128Shift_xor (v w : Block) : gf128Shift (v ^^^ w) = gf128Shift v ^^^ gf128Shift w := by
  simp only [gf128Shift, BitVec.getLsbD_xor, BitVec.ushiftRight_xor_distrib]
  cases v.getLsbD 0 <;> cases w.getLsbD 0 <;> simp [BitVec.xor_comm, bitVec_xor_left_comm]

/-- The loop's result is a sum of the running values, so a map that is additive and commutes with the shift passes
through the loop. -/
theorem map_gf128Loop {f : Block → Block} (hxor : ∀ v w, f (v ^^^ w) = f v ^^^ f w)
    (hshift : ∀ v, f (gf128Shift v) = gf128Shift (f v)) (x : Block) (n : Nat) (z v : Block) :
    f (gf128Loop x n z v) = gf128Loop x n (f z) (f v) := by
  induction n generalizing z v with
  | zero => rfl
  | succ n ih => rw [gf128Loop, gf128Loop, ih, hshift, apply_ite f, hxor]

theorem map_gf128Mul {f : Block → Block} (hxor : ∀ v w, f (v ^^^ w) = f v ^^^ f w)
    (hshift : ∀ v, f (gf128Shift v) = gf128Shift (f v)) (x y : Block) : f (gf128Mul x y) = gf128Mul x (f y) := by
  have hzero : f 0 = 0 := by simpa using hxor 0 0
  rw [gf128Mul, map_gf128Loop hxor hshift, hzero, gf128Mul]

theorem gf128Loop_xor (x : Block) (n : Nat) (z z' v w : Block) :
    gf128Loop x n (z ^^^ z') (v ^^^ w) = gf128Loop x n z v ^^^ gf128Loop x n z' w := by
  induction n generalizing z z' v w with
  | zero => rfl
  | succ n ih =>
    simp only [gf128Loop, gf128Shift_xor, ← ih]
    congr 1
    cases x.getLsbD n <;> simp [BitVec.xor_assoc, bitVec_xor_left_comm]

theorem gf128Mul_xor_right (x v w : Block) : gf128Mul x (v ^^^ w) = gf128Mul x v ^^^ gf128Mul x w :=
  gf128Loop_xor x 128 0 0 v w

theorem gf128Mul_shift_right (x v : Block) : gf128Mul x (gf128Shift v) = gf128Shift (gf128Mul x v) :=
  (map_gf128Mul gf128Shift_xor (fun _ => rfl) x v).symm

theorem gf128Mul_zero (x : Block) : gf128Mul x 0#128 = 0#128 := by simpa using gf128Mul_xor_right x 0#128 0#128

/-- The product of the polynomial 1 by the low `n` coefficients of `b`. -/
theorem one_polyMul (n b : Nat) : polyMul 1 n b = b % 2 ^ n := by
  induction n with
  | zero => rw [polyMul, Nat.pow_zero, Nat.mod_one]
  | succ n ih =>
    refine Nat.eq_of_testBit_eq fun i => ?_
    have hterm : (if b.testBit n then 1 <<< n else 0).testBit i = (decide (i = n) && b.testBit i) := by
      rw [Nat.one_shiftLeft]
      split <;> grind
    have hlt : decide (i < n + 1) = (decide (i < n) ^^ decide (i = n)) := by grind
    rw [polyMul, ih, Nat.testBit_xor, Nat.testBit_mod_two_pow, Nat.testBit_mod_two_pow, hterm, hlt,
      Bool.and_xor_distrib_right]

/-- The polynomial 1 is the identity (R107). -/
theorem gf128Mul_one (x : Block) : gf128Mul x 0x80000000000000000000000000000000#128 = x := by
  refine blockPoly_injective ?_
  rw [blockPoly_gf128Mul, blockPoly_one, one_polyMul, Nat.mod_eq_of_lt (blockPoly_lt x), ← Nat.zero_add 127,
    polyMod_add_of_lt _ (blockPoly_lt x), polyMod]

/-- Multiplying by `x` is a map that passes through the product of `y` and the identity. -/
theorem gf128Mul_comm (x y : Block) : gf128Mul x y = gf128Mul y x :=
  calc gf128Mul x y = gf128Mul x (gf128Mul y 0x80000000000000000000000000000000#128) := by rw [gf128Mul_one]
    _ = gf128Mul y (gf128Mul x 0x80000000000000000000000000000000#128) :=
      map_gf128Mul (gf128Mul_xor_right x) (gf128Mul_shift_right x) y _
    _ = gf128Mul y x := by rw [gf128Mul_one]

end Sys2Proof.Machine

open Sys2Proof.Machine Sys2Proof.Safety

/-- Settles O21: by induction on the turns the loop gives the product with the factors exchanged, and the product is
commutative. -/
theorem gf128MulIsPolynomialProduct : Obligations.Gf128MulIsPolynomialProduct := fun x y => by
  rw [gf128Mul_comm, blockPoly_gf128Mul]

/-- Settles O22: addition is XOR by definition, and the product's laws follow from its linearity and the identity. -/
theorem gf128Laws : Obligations.Gf128Laws := ⟨fun _ _ => rfl, gf128Mul_comm, gf128Mul_zero, gf128Mul_one⟩

end
